-- ==== Sys2Proof/Word.lean ====
section
/-! DEFINITION. The word types of the block: every register, address and instruction word is 32 bits
(00_scope.md R6, R8), memory is bytes (20_memory.md R31), a reduced-mode fetch is a halfword (30_encoding.md R45). -/

namespace Sys2Proof

/-- A register value, an address or an ARM-mode instruction word. -/
abbrev Word := BitVec 32

/-- A halfword: what a reduced-mode fetch reads (20_memory.md R33). -/
abbrev Half := BitVec 16

/-- A byte of memory (20_memory.md R31). -/
abbrev Byte := BitVec 8

/-- A general register's index, 0 to 15 (10_state.md R15). -/
abbrev Reg := Fin 16

end Sys2Proof
end

