-- ==== Sys2Proof/Syntax.lean ====
section
/-! DEFINITION. The instructions: one constructor of `Instr` per row of spec/opcode_table.json, with the
fields its row leaves free (30_encoding.md R48 to R57). Field names: `c` cond, `f` the S bit (flag setting),
`rn`, `rd`, `rm` registers, `rot` and `imm8` the rotated immediate, `shamt` and `kind` the shift. -/

namespace Sys2Proof

/-- The 15 defined condition codes, in the order of their numbers 0 to 14 (40_condition.md R67). -/
inductive Cond where
  | eq | ne | cs | cc | mi | pl | vs | vc | hi | ls | ge | lt | gt | le | al
  deriving DecidableEq, Repr

/-- The shift kinds (30_encoding.md R54). -/
inductive ShiftKind where
  | lsl | lsr | asr | ror
  deriving DecidableEq, Repr

/-- The sixteen data-processing opcodes, in the order of their numbers (30_encoding.md R50). -/
inductive DpOp where
  | and | eor | sub | rsb | add | adc | sbc | rsc | tst | teq | cmp | cmn | orr | mov | bic | mvn
  deriving DecidableEq, Repr

/-- The two ALU groups (42_data_processing.md R79). -/
inductive AluGroup where
  | logical | arithmetic
  deriving DecidableEq, Repr

/-- Operand 2 of a data-processing instruction (41_shifter.md R76, R77). -/
inductive Operand2 where
  /-- `ROR(zext_8(imm8), 2 * rot)`. -/
  | imm (rot : Fin 16) (imm8 : Byte)
  /-- `shift(x[rm], kind, shamt, C)`. -/
  | shifted (rm : Reg) (kind : ShiftKind) (shamt : Fin 32)
  deriving DecidableEq, Repr

/-- The instruction set: 36 rows, 20 mnemonics. -/
inductive Instr where
  /-- AND, format DP_IMM (42_data_processing.md R88). -/
  | andImm (c : Cond) (f : Bool) (rn rd : Reg) (rot : Fin 16) (imm8 : Byte)
  /-- AND, format DP_REG (42_data_processing.md R88). -/
  | andReg (c : Cond) (f : Bool) (rn rd : Reg) (shamt : Fin 32) (kind : ShiftKind) (rm : Reg)
  /-- EOR, format DP_IMM (42_data_processing.md R89). -/
  | eorImm (c : Cond) (f : Bool) (rn rd : Reg) (rot : Fin 16) (imm8 : Byte)
  /-- EOR, format DP_REG (42_data_processing.md R89). -/
  | eorReg (c : Cond) (f : Bool) (rn rd : Reg) (shamt : Fin 32) (kind : ShiftKind) (rm : Reg)
  /-- SUB, format DP_IMM (42_data_processing.md R90). -/
  | subImm (c : Cond) (f : Bool) (rn rd : Reg) (rot : Fin 16) (imm8 : Byte)
  /-- SUB, format DP_REG (42_data_processing.md R90). -/
  | subReg (c : Cond) (f : Bool) (rn rd : Reg) (shamt : Fin 32) (kind : ShiftKind) (rm : Reg)
  /-- RSB, format DP_IMM (42_data_processing.md R91). -/
  | rsbImm (c : Cond) (f : Bool) (rn rd : Reg) (rot : Fin 16) (imm8 : Byte)
  /-- RSB, format DP_REG (42_data_processing.md R91). -/
  | rsbReg (c : Cond) (f : Bool) (rn rd : Reg) (shamt : Fin 32) (kind : ShiftKind) (rm : Reg)
  /-- ADD, format DP_IMM (42_data_processing.md R92). -/
  | addImm (c : Cond) (f : Bool) (rn rd : Reg) (rot : Fin 16) (imm8 : Byte)
  /-- ADD, format DP_REG (42_data_processing.md R92). -/
  | addReg (c : Cond) (f : Bool) (rn rd : Reg) (shamt : Fin 32) (kind : ShiftKind) (rm : Reg)
  /-- ADC, format DP_IMM (42_data_processing.md R93). -/
  | adcImm (c : Cond) (f : Bool) (rn rd : Reg) (rot : Fin 16) (imm8 : Byte)
  /-- ADC, format DP_REG (42_data_processing.md R93). -/
  | adcReg (c : Cond) (f : Bool) (rn rd : Reg) (shamt : Fin 32) (kind : ShiftKind) (rm : Reg)
  /-- SBC, format DP_IMM (42_data_processing.md R94). -/
  | sbcImm (c : Cond) (f : Bool) (rn rd : Reg) (rot : Fin 16) (imm8 : Byte)
  /-- SBC, format DP_REG (42_data_processing.md R94). -/
  | sbcReg (c : Cond) (f : Bool) (rn rd : Reg) (shamt : Fin 32) (kind : ShiftKind) (rm : Reg)
  /-- RSC, format DP_IMM (42_data_processing.md R95). -/
  | rscImm (c : Cond) (f : Bool) (rn rd : Reg) (rot : Fin 16) (imm8 : Byte)
  /-- RSC, format DP_REG (42_data_processing.md R95). -/
  | rscReg (c : Cond) (f : Bool) (rn rd : Reg) (shamt : Fin 32) (kind : ShiftKind) (rm : Reg)
  /-- TST, format DP_IMM (42_data_processing.md R96). -/
  | tstImm (c : Cond) (rn : Reg) (rot : Fin 16) (imm8 : Byte)
  /-- TST, format DP_REG (42_data_processing.md R96). -/
  | tstReg (c : Cond) (rn : Reg) (shamt : Fin 32) (kind : ShiftKind) (rm : Reg)
  /-- TEQ, format DP_IMM (42_data_processing.md R97). -/
  | teqImm (c : Cond) (rn : Reg) (rot : Fin 16) (imm8 : Byte)
  /-- TEQ, format DP_REG (42_data_processing.md R97). -/
  | teqReg (c : Cond) (rn : Reg) (shamt : Fin 32) (kind : ShiftKind) (rm : Reg)
  /-- CMP, format DP_IMM (42_data_processing.md R98). -/
  | cmpImm (c : Cond) (rn : Reg) (rot : Fin 16) (imm8 : Byte)
  /-- CMP, format DP_REG (42_data_processing.md R98). -/
  | cmpReg (c : Cond) (rn : Reg) (shamt : Fin 32) (kind : ShiftKind) (rm : Reg)
  /-- CMN, format DP_IMM (42_data_processing.md R99). -/
  | cmnImm (c : Cond) (rn : Reg) (rot : Fin 16) (imm8 : Byte)
  /-- CMN, format DP_REG (42_data_processing.md R99). -/
  | cmnReg (c : Cond) (rn : Reg) (shamt : Fin 32) (kind : ShiftKind) (rm : Reg)
  /-- ORR, format DP_IMM (42_data_processing.md R100). -/
  | orrImm (c : Cond) (f : Bool) (rn rd : Reg) (rot : Fin 16) (imm8 : Byte)
  /-- ORR, format DP_REG (42_data_processing.md R100). -/
  | orrReg (c : Cond) (f : Bool) (rn rd : Reg) (shamt : Fin 32) (kind : ShiftKind) (rm : Reg)
  /-- MOV, format DP_IMM (42_data_processing.md R101). -/
  | movImm (c : Cond) (f : Bool) (rd : Reg) (rot : Fin 16) (imm8 : Byte)
  /-- MOV, format DP_REG (42_data_processing.md R101). -/
  | movReg (c : Cond) (f : Bool) (rd : Reg) (shamt : Fin 32) (kind : ShiftKind) (rm : Reg)
  /-- BIC, format DP_IMM (42_data_processing.md R102). -/
  | bicImm (c : Cond) (f : Bool) (rn rd : Reg) (rot : Fin 16) (imm8 : Byte)
  /-- BIC, format DP_REG (42_data_processing.md R102). -/
  | bicReg (c : Cond) (f : Bool) (rn rd : Reg) (shamt : Fin 32) (kind : ShiftKind) (rm : Reg)
  /-- MVN, format DP_IMM (42_data_processing.md R103). -/
  | mvnImm (c : Cond) (f : Bool) (rd : Reg) (rot : Fin 16) (imm8 : Byte)
  /-- MVN, format DP_REG (42_data_processing.md R103). -/
  | mvnReg (c : Cond) (f : Bool) (rd : Reg) (shamt : Fin 32) (kind : ShiftKind) (rm : Reg)
  /-- B, format BRANCH with L = 0 (43_branch.md R107). -/
  | b (c : Cond) (imm24 : BitVec 24)
  /-- BL, format BRANCH with L = 1 (43_branch.md R108). -/
  | bl (c : Cond) (imm24 : BitVec 24)
  /-- LDR, format LS_WORD with L = 1 (44_load_store.md R112). -/
  | ldr (c : Cond) (rn rd : Reg)
  /-- STR, format LS_WORD with L = 0 (44_load_store.md R113). -/
  | str (c : Cond) (rn rd : Reg)
  deriving DecidableEq, Repr

/-- The condition field of an instruction (30_encoding.md R46). -/
def Instr.cond : Instr → Cond
  | .andImm c _ _ _ _ _ => c
  | .andReg c _ _ _ _ _ _ => c
  | .eorImm c _ _ _ _ _ => c
  | .eorReg c _ _ _ _ _ _ => c
  | .subImm c _ _ _ _ _ => c
  | .subReg c _ _ _ _ _ _ => c
  | .rsbImm c _ _ _ _ _ => c
  | .rsbReg c _ _ _ _ _ _ => c
  | .addImm c _ _ _ _ _ => c
  | .addReg c _ _ _ _ _ _ => c
  | .adcImm c _ _ _ _ _ => c
  | .adcReg c _ _ _ _ _ _ => c
  | .sbcImm c _ _ _ _ _ => c
  | .sbcReg c _ _ _ _ _ _ => c
  | .rscImm c _ _ _ _ _ => c
  | .rscReg c _ _ _ _ _ _ => c
  | .tstImm c _ _ _ => c
  | .tstReg c _ _ _ _ => c
  | .teqImm c _ _ _ => c
  | .teqReg c _ _ _ _ => c
  | .cmpImm c _ _ _ => c
  | .cmpReg c _ _ _ _ => c
  | .cmnImm c _ _ _ => c
  | .cmnReg c _ _ _ _ => c
  | .orrImm c _ _ _ _ _ => c
  | .orrReg c _ _ _ _ _ _ => c
  | .movImm c _ _ _ _ => c
  | .movReg c _ _ _ _ _ => c
  | .bicImm c _ _ _ _ _ => c
  | .bicReg c _ _ _ _ _ _ => c
  | .mvnImm c _ _ _ _ => c
  | .mvnReg c _ _ _ _ _ => c
  | .b c _ => c
  | .bl c _ => c
  | .ldr c _ _ => c
  | .str c _ _ => c

/-- The operands of a data-processing instruction, as `ExecDP` takes them (42_data_processing.md R87). A
test-only opcode has S = 1 and Rd = 0, and MOV and MVN have Rn = 0 (30_encoding.md R51, R52). -/
structure DpFields where
  op : DpOp
  setFlags : Bool
  rn : Reg
  rd : Reg
  op2 : Operand2
  deriving DecidableEq, Repr

end Sys2Proof
end

