-- ==== Sys2Proof/WellFormed.lean ====
section
/-! DEFINITION. Which terms of `Instr` are instructions of the block. The syntax leaves one thing to check:
a data-processing instruction that is not test-only may not have Rd = 15 with S = 1 (30_encoding.md R53). -/

namespace Sys2Proof

/-- Rule R53 of 30_encoding.md: Rd = 15 with S = 1 is no instruction. -/
def flagFormOk (f : Bool) (rd : Reg) : Bool := !(f && rd == 15)

/-- Well-formed instructions. -/
def Instr.wf : Instr → Bool
  | .andImm _ f _ rd _ _ => flagFormOk f rd
  | .andReg _ f _ rd _ _ _ => flagFormOk f rd
  | .eorImm _ f _ rd _ _ => flagFormOk f rd
  | .eorReg _ f _ rd _ _ _ => flagFormOk f rd
  | .subImm _ f _ rd _ _ => flagFormOk f rd
  | .subReg _ f _ rd _ _ _ => flagFormOk f rd
  | .rsbImm _ f _ rd _ _ => flagFormOk f rd
  | .rsbReg _ f _ rd _ _ _ => flagFormOk f rd
  | .addImm _ f _ rd _ _ => flagFormOk f rd
  | .addReg _ f _ rd _ _ _ => flagFormOk f rd
  | .adcImm _ f _ rd _ _ => flagFormOk f rd
  | .adcReg _ f _ rd _ _ _ => flagFormOk f rd
  | .sbcImm _ f _ rd _ _ => flagFormOk f rd
  | .sbcReg _ f _ rd _ _ _ => flagFormOk f rd
  | .rscImm _ f _ rd _ _ => flagFormOk f rd
  | .rscReg _ f _ rd _ _ _ => flagFormOk f rd
  | .tstImm _ _ _ _ => true
  | .tstReg _ _ _ _ _ => true
  | .teqImm _ _ _ _ => true
  | .teqReg _ _ _ _ _ => true
  | .cmpImm _ _ _ _ => true
  | .cmpReg _ _ _ _ _ => true
  | .cmnImm _ _ _ _ => true
  | .cmnReg _ _ _ _ _ => true
  | .orrImm _ f _ rd _ _ => flagFormOk f rd
  | .orrReg _ f _ rd _ _ _ => flagFormOk f rd
  | .movImm _ f rd _ _ => flagFormOk f rd
  | .movReg _ f rd _ _ _ => flagFormOk f rd
  | .bicImm _ f _ rd _ _ => flagFormOk f rd
  | .bicReg _ f _ rd _ _ _ => flagFormOk f rd
  | .mvnImm _ f rd _ _ => flagFormOk f rd
  | .mvnReg _ f rd _ _ _ => flagFormOk f rd
  | .b _ _ => true
  | .bl _ _ => true
  | .ldr _ _ _ => true
  | .str _ _ _ => true

end Sys2Proof
end

