-- ==== Sys2Proof/Decode.lean ====
section
/-! DEFINITION. The decoder (30_encoding.md R58), the encoder written from the same layouts (R48 to R56), and
the opcode table as data. Every position is the spec's decision D5. -/

namespace Sys2Proof

/-! ## Field codes -/

/-- The number of a condition code (40_condition.md R67). -/
def Cond.code : Cond → BitVec 4
  | .eq => 0b0000#4
  | .ne => 0b0001#4
  | .cs => 0b0010#4
  | .cc => 0b0011#4
  | .mi => 0b0100#4
  | .pl => 0b0101#4
  | .vs => 0b0110#4
  | .vc => 0b0111#4
  | .hi => 0b1000#4
  | .ls => 0b1001#4
  | .ge => 0b1010#4
  | .lt => 0b1011#4
  | .gt => 0b1100#4
  | .le => 0b1101#4
  | .al => 0b1110#4

/-- The condition with this number; 1111 is reserved (40_condition.md R67, R68). -/
def Cond.ofCode (v : BitVec 4) : Option Cond :=
  match v with
  | 0b0000#4 => some .eq
  | 0b0001#4 => some .ne
  | 0b0010#4 => some .cs
  | 0b0011#4 => some .cc
  | 0b0100#4 => some .mi
  | 0b0101#4 => some .pl
  | 0b0110#4 => some .vs
  | 0b0111#4 => some .vc
  | 0b1000#4 => some .hi
  | 0b1001#4 => some .ls
  | 0b1010#4 => some .ge
  | 0b1011#4 => some .lt
  | 0b1100#4 => some .gt
  | 0b1101#4 => some .le
  | 0b1110#4 => some .al
  | _ => none

/-- The opcode field of a data-processing operation (30_encoding.md R50). -/
def DpOp.code : DpOp → BitVec 4
  | .and => 0b0000#4
  | .eor => 0b0001#4
  | .sub => 0b0010#4
  | .rsb => 0b0011#4
  | .add => 0b0100#4
  | .adc => 0b0101#4
  | .sbc => 0b0110#4
  | .rsc => 0b0111#4
  | .tst => 0b1000#4
  | .teq => 0b1001#4
  | .cmp => 0b1010#4
  | .cmn => 0b1011#4
  | .orr => 0b1100#4
  | .mov => 0b1101#4
  | .bic => 0b1110#4
  | .mvn => 0b1111#4

/-- The operation with this opcode field (30_encoding.md R50). -/
def DpOp.ofCode (v : BitVec 4) : DpOp :=
  match v with
  | 0b0000#4 => .and
  | 0b0001#4 => .eor
  | 0b0010#4 => .sub
  | 0b0011#4 => .rsb
  | 0b0100#4 => .add
  | 0b0101#4 => .adc
  | 0b0110#4 => .sbc
  | 0b0111#4 => .rsc
  | 0b1000#4 => .tst
  | 0b1001#4 => .teq
  | 0b1010#4 => .cmp
  | 0b1011#4 => .cmn
  | 0b1100#4 => .orr
  | 0b1101#4 => .mov
  | 0b1110#4 => .bic
  | _ => .mvn

/-- TST, TEQ, CMP and CMN (30_encoding.md R50, R58). -/
def DpOp.testOnly : DpOp → Bool
  | .tst | .teq | .cmp | .cmn => true
  | .and | .eor | .sub | .rsb | .add | .adc | .sbc | .rsc | .orr | .mov | .bic | .mvn => false

/-- MOV and MVN, which do not read Rn (30_encoding.md R52). -/
def DpOp.isMove : DpOp → Bool
  | .mov | .mvn => true
  | .and | .eor | .sub | .rsb | .add | .adc | .sbc | .rsc | .tst | .teq | .cmp | .cmn | .orr | .bic => false

/-- The shift type field (30_encoding.md R54). -/
def ShiftKind.code : ShiftKind → BitVec 2
  | .lsl => 0b00#2
  | .lsr => 0b01#2
  | .asr => 0b10#2
  | .ror => 0b11#2

/-- The shift kind with this type field (30_encoding.md R54). -/
def ShiftKind.ofCode (v : BitVec 2) : ShiftKind :=
  match v with
  | 0b00#2 => .lsl
  | 0b01#2 => .lsr
  | 0b10#2 => .asr
  | _ => .ror

/-- A 4-bit field as an index 0 to 15: a register or a rotation (30_encoding.md R57). -/
def index4 (v : BitVec 4) : Fin 16 := ⟨v.toNat, v.isLt⟩

/-- An index 0 to 15 as a 4-bit field. -/
def bits4 (r : Fin 16) : BitVec 4 := BitVec.ofNat 4 r.val

/-- The 5-bit shift amount field as an amount 0 to 31 (30_encoding.md R57). -/
def index5 (v : BitVec 5) : Fin 32 := ⟨v.toNat, v.isLt⟩

/-- A shift amount as its 5-bit field. -/
def bits5 (n : Fin 32) : BitVec 5 := BitVec.ofNat 5 n.val

/-! ## Data-processing operands -/

/-- The data-processing operands of an instruction, none for B, BL, LDR and STR. -/
def Instr.dp? : Instr → Option DpFields
  | .andImm _ f rn rd rot imm8 => some ⟨.and, f, rn, rd, .imm rot imm8⟩
  | .andReg _ f rn rd shamt kind rm => some ⟨.and, f, rn, rd, .shifted rm kind shamt⟩
  | .eorImm _ f rn rd rot imm8 => some ⟨.eor, f, rn, rd, .imm rot imm8⟩
  | .eorReg _ f rn rd shamt kind rm => some ⟨.eor, f, rn, rd, .shifted rm kind shamt⟩
  | .subImm _ f rn rd rot imm8 => some ⟨.sub, f, rn, rd, .imm rot imm8⟩
  | .subReg _ f rn rd shamt kind rm => some ⟨.sub, f, rn, rd, .shifted rm kind shamt⟩
  | .rsbImm _ f rn rd rot imm8 => some ⟨.rsb, f, rn, rd, .imm rot imm8⟩
  | .rsbReg _ f rn rd shamt kind rm => some ⟨.rsb, f, rn, rd, .shifted rm kind shamt⟩
  | .addImm _ f rn rd rot imm8 => some ⟨.add, f, rn, rd, .imm rot imm8⟩
  | .addReg _ f rn rd shamt kind rm => some ⟨.add, f, rn, rd, .shifted rm kind shamt⟩
  | .adcImm _ f rn rd rot imm8 => some ⟨.adc, f, rn, rd, .imm rot imm8⟩
  | .adcReg _ f rn rd shamt kind rm => some ⟨.adc, f, rn, rd, .shifted rm kind shamt⟩
  | .sbcImm _ f rn rd rot imm8 => some ⟨.sbc, f, rn, rd, .imm rot imm8⟩
  | .sbcReg _ f rn rd shamt kind rm => some ⟨.sbc, f, rn, rd, .shifted rm kind shamt⟩
  | .rscImm _ f rn rd rot imm8 => some ⟨.rsc, f, rn, rd, .imm rot imm8⟩
  | .rscReg _ f rn rd shamt kind rm => some ⟨.rsc, f, rn, rd, .shifted rm kind shamt⟩
  | .tstImm _ rn rot imm8 => some ⟨.tst, true, rn, 0, .imm rot imm8⟩
  | .tstReg _ rn shamt kind rm => some ⟨.tst, true, rn, 0, .shifted rm kind shamt⟩
  | .teqImm _ rn rot imm8 => some ⟨.teq, true, rn, 0, .imm rot imm8⟩
  | .teqReg _ rn shamt kind rm => some ⟨.teq, true, rn, 0, .shifted rm kind shamt⟩
  | .cmpImm _ rn rot imm8 => some ⟨.cmp, true, rn, 0, .imm rot imm8⟩
  | .cmpReg _ rn shamt kind rm => some ⟨.cmp, true, rn, 0, .shifted rm kind shamt⟩
  | .cmnImm _ rn rot imm8 => some ⟨.cmn, true, rn, 0, .imm rot imm8⟩
  | .cmnReg _ rn shamt kind rm => some ⟨.cmn, true, rn, 0, .shifted rm kind shamt⟩
  | .orrImm _ f rn rd rot imm8 => some ⟨.orr, f, rn, rd, .imm rot imm8⟩
  | .orrReg _ f rn rd shamt kind rm => some ⟨.orr, f, rn, rd, .shifted rm kind shamt⟩
  | .movImm _ f rd rot imm8 => some ⟨.mov, f, 0, rd, .imm rot imm8⟩
  | .movReg _ f rd shamt kind rm => some ⟨.mov, f, 0, rd, .shifted rm kind shamt⟩
  | .bicImm _ f rn rd rot imm8 => some ⟨.bic, f, rn, rd, .imm rot imm8⟩
  | .bicReg _ f rn rd shamt kind rm => some ⟨.bic, f, rn, rd, .shifted rm kind shamt⟩
  | .mvnImm _ f rd rot imm8 => some ⟨.mvn, f, 0, rd, .imm rot imm8⟩
  | .mvnReg _ f rd shamt kind rm => some ⟨.mvn, f, 0, rd, .shifted rm kind shamt⟩
  | .b _ _ => none
  | .bl _ _ => none
  | .ldr _ _ _ => none
  | .str _ _ _ => none

/-- The data-processing instruction with these operands. The fields a row does not have are dropped:
`f` and `rd` of a test-only opcode, `rn` of MOV and MVN. -/
def Instr.ofDp (c : Cond) (d : DpFields) : Instr :=
  match d.op, d.op2 with
  | .and, .imm rot imm8 => .andImm c d.setFlags d.rn d.rd rot imm8
  | .and, .shifted rm kind shamt => .andReg c d.setFlags d.rn d.rd shamt kind rm
  | .eor, .imm rot imm8 => .eorImm c d.setFlags d.rn d.rd rot imm8
  | .eor, .shifted rm kind shamt => .eorReg c d.setFlags d.rn d.rd shamt kind rm
  | .sub, .imm rot imm8 => .subImm c d.setFlags d.rn d.rd rot imm8
  | .sub, .shifted rm kind shamt => .subReg c d.setFlags d.rn d.rd shamt kind rm
  | .rsb, .imm rot imm8 => .rsbImm c d.setFlags d.rn d.rd rot imm8
  | .rsb, .shifted rm kind shamt => .rsbReg c d.setFlags d.rn d.rd shamt kind rm
  | .add, .imm rot imm8 => .addImm c d.setFlags d.rn d.rd rot imm8
  | .add, .shifted rm kind shamt => .addReg c d.setFlags d.rn d.rd shamt kind rm
  | .adc, .imm rot imm8 => .adcImm c d.setFlags d.rn d.rd rot imm8
  | .adc, .shifted rm kind shamt => .adcReg c d.setFlags d.rn d.rd shamt kind rm
  | .sbc, .imm rot imm8 => .sbcImm c d.setFlags d.rn d.rd rot imm8
  | .sbc, .shifted rm kind shamt => .sbcReg c d.setFlags d.rn d.rd shamt kind rm
  | .rsc, .imm rot imm8 => .rscImm c d.setFlags d.rn d.rd rot imm8
  | .rsc, .shifted rm kind shamt => .rscReg c d.setFlags d.rn d.rd shamt kind rm
  | .tst, .imm rot imm8 => .tstImm c d.rn rot imm8
  | .tst, .shifted rm kind shamt => .tstReg c d.rn shamt kind rm
  | .teq, .imm rot imm8 => .teqImm c d.rn rot imm8
  | .teq, .shifted rm kind shamt => .teqReg c d.rn shamt kind rm
  | .cmp, .imm rot imm8 => .cmpImm c d.rn rot imm8
  | .cmp, .shifted rm kind shamt => .cmpReg c d.rn shamt kind rm
  | .cmn, .imm rot imm8 => .cmnImm c d.rn rot imm8
  | .cmn, .shifted rm kind shamt => .cmnReg c d.rn shamt kind rm
  | .orr, .imm rot imm8 => .orrImm c d.setFlags d.rn d.rd rot imm8
  | .orr, .shifted rm kind shamt => .orrReg c d.setFlags d.rn d.rd shamt kind rm
  | .mov, .imm rot imm8 => .movImm c d.setFlags d.rd rot imm8
  | .mov, .shifted rm kind shamt => .movReg c d.setFlags d.rd shamt kind rm
  | .bic, .imm rot imm8 => .bicImm c d.setFlags d.rn d.rd rot imm8
  | .bic, .shifted rm kind shamt => .bicReg c d.setFlags d.rn d.rd shamt kind rm
  | .mvn, .imm rot imm8 => .mvnImm c d.setFlags d.rd rot imm8
  | .mvn, .shifted rm kind shamt => .mvnReg c d.setFlags d.rd shamt kind rm

/-! ## The decoder -/

/-- Why the decoder refuses a word. The block has one fault kind for all of them, `UnsupportedInstruction`;
the names follow the encoding spaces of 30_encoding.md R63 (log entry 13). -/
inductive DecodeError where
  /-- Fewer than four bytes: no word. -/
  | truncated
  /-- Condition 1111 (R59). -/
  | reservedCondition
  /-- Class 000 with bit 4 = 1 and bit 7 = 0: register-specified shift (R47). -/
  | registerShift
  /-- Class 000 with bits 4 and 7 = 1: multiply, swap, halfword and signed transfers (R47). -/
  | multiplySwapHalfword
  /-- A test-only opcode with S = 0: MRS, MSR, BX (R51). -/
  | testWithoutFlags
  /-- A should-be-zero field that is not zero (R52). -/
  | nonZeroField
  /-- Not test-only, Rd = 15 and S = 1 (R53). -/
  | flagSettingPcWrite
  /-- Class 010 outside the one accepted form (R56). -/
  | transferForm
  /-- Class 011: register offset, or architecturally undefined (R47). -/
  | registerOffset
  /-- Class 100: LDM, STM (R47). -/
  | blockTransfer
  /-- Class 110: coprocessor data transfer (R47). -/
  | coprocessorTransfer
  /-- Class 111: coprocessor operation, register transfer, SWI (R47). -/
  | coprocessorOrSwi
  deriving DecidableEq, Repr

/-- `DecodeDP` of 30_encoding.md R58, after its fields are read. -/
def decodeDp (c : Cond) (d : DpFields) : Except DecodeError Instr :=
  if d.op.testOnly && !d.setFlags then .error .testWithoutFlags
  else if d.op.testOnly && d.rd != 0 then .error .nonZeroField
  else if d.op.isMove && d.rn != 0 then .error .nonZeroField
  else if !d.op.testOnly && !flagFormOk d.setFlags d.rd then .error .flagSettingPcWrite
  else .ok (Instr.ofDp c d)

/-- The operand 2 field of format DP_IMM (30_encoding.md R48). -/
def immField (w : Word) : Operand2 := .imm (index4 (w.extractLsb' 8 4)) (w.extractLsb' 0 8)

/-- The operand 2 field of format DP_REG (30_encoding.md R49). -/
def shiftedField (w : Word) : Operand2 :=
  .shifted (index4 (w.extractLsb' 0 4)) (ShiftKind.ofCode (w.extractLsb' 5 2)) (index5 (w.extractLsb' 7 5))

/-- The fields that DP_IMM and DP_REG share (30_encoding.md R48, R49). -/
def dpFields (w : Word) (op2 : Operand2) : DpFields :=
  ⟨DpOp.ofCode (w.extractLsb' 21 4), w.getLsbD 20, index4 (w.extractLsb' 16 4), index4 (w.extractLsb' 12 4), op2⟩

/-- Class 010: the one accepted form of LDR and STR (30_encoding.md R56, R58). -/
def decodeTransfer (c : Cond) (w : Word) : Except DecodeError Instr :=
  if w.extractLsb' 21 5 = 0b01100#5 ∧ w.extractLsb' 0 12 = 0#12 then
    if w.getLsbD 20 then .ok (.ldr c (index4 (w.extractLsb' 16 4)) (index4 (w.extractLsb' 12 4)))
    else .ok (.str c (index4 (w.extractLsb' 16 4)) (index4 (w.extractLsb' 12 4)))
  else .error .transferForm

/-- Class 101 (30_encoding.md R55, R58). -/
def decodeBranch (c : Cond) (w : Word) : Instr :=
  if w.getLsbD 24 then .bl c (w.extractLsb' 0 24) else .b c (w.extractLsb' 0 24)

/-- `Decode(inst)` of 30_encoding.md R58, on the class bits, for a condition that is not reserved. -/
def decodeClass (c : Cond) (w : Word) : Except DecodeError Instr :=
  match w.extractLsb' 25 3 with
  | 0b000#3 =>
    if w.getLsbD 4 then .error (if w.getLsbD 7 then .multiplySwapHalfword else .registerShift)
    else decodeDp c (dpFields w (shiftedField w))
  | 0b001#3 => decodeDp c (dpFields w (immField w))
  | 0b010#3 => decodeTransfer c w
  | 0b011#3 => .error .registerOffset
  | 0b100#3 => .error .blockTransfer
  | 0b101#3 => .ok (decodeBranch c w)
  | 0b110#3 => .error .coprocessorTransfer
  | _ => .error .coprocessorOrSwi

/-- The decoder, total on all 2^32 words. In a cycle it runs only after the condition passed
(45_execution_loop.md R118), so it never meets the reserved condition there (30_encoding.md R59). -/
def decodeWord (w : Word) : Except DecodeError Instr :=
  match Cond.ofCode (w.extractLsb' 28 4) with
  | none => .error .reservedCondition
  | some c => decodeClass c w

/-- The little-endian word of four bytes, the lowest address first (20_memory.md R35, R39). -/
def wordOfBytes (b0 b1 b2 b3 : Byte) : Word := b3 ++ b2 ++ b1 ++ b0

/-- Byte k of a word, as it lies at address a + k (20_memory.md R36). -/
def byteOfWord (v : Word) (k : Nat) : Byte := v.extractLsb' (8 * k) 8

/-- The decoder on any bytes: the first instruction and the bytes after it. -/
def decodeBytes (bs : List Byte) : Except DecodeError (Instr × List Byte) :=
  match bs with
  | b0 :: b1 :: b2 :: b3 :: rest =>
    match decodeWord (wordOfBytes b0 b1 b2 b3) with
    | .ok i => .ok (i, rest)
    | .error e => .error e
  | _ => .error .truncated

/-- The instruction in the low `nbits` bits of `w`, numbered as spec/opcode_table.json numbers them. -/
def decodeTableWord (nbits w : Nat) : Option Instr :=
  let v := BitVec.ofNat 32 (w % 2 ^ nbits)
  match decodeBytes [byteOfWord v 0, byteOfWord v 1, byteOfWord v 2, byteOfWord v 3] with
  | .ok (i, _) => some i
  | .error _ => none

/-! ## The encoder -/

/-- Format DP_IMM: cond 001 opcode S Rn Rd rot imm8 (30_encoding.md R48). -/
def dpImmWord (c : Cond) (op : DpOp) (f : Bool) (rn rd : Reg) (rot : Fin 16) (imm8 : Byte) : Word :=
  c.code ++ 0b001#3 ++ op.code ++ BitVec.ofBool f ++ bits4 rn ++ bits4 rd ++ bits4 rot ++ imm8

/-- Format DP_REG: cond 000 opcode S Rn Rd shamt type 0 Rm (30_encoding.md R49). -/
def dpRegWord (c : Cond) (op : DpOp) (f : Bool) (rn rd : Reg) (shamt : Fin 32) (kind : ShiftKind) (rm : Reg) :
    Word :=
  c.code ++ 0b000#3 ++ op.code ++ BitVec.ofBool f ++ bits4 rn ++ bits4 rd ++ bits5 shamt ++ kind.code ++ 0#1 ++
    bits4 rm

/-- Format BRANCH: cond 101 L imm24 (30_encoding.md R55). -/
def branchWord (c : Cond) (l : Bool) (imm24 : BitVec 24) : Word :=
  c.code ++ 0b101#3 ++ BitVec.ofBool l ++ imm24

/-- Format LS_WORD in its one form: cond 01 0 1 1 0 0 L Rn Rd and twelve zeros (30_encoding.md R56). -/
def transferWord (c : Cond) (l : Bool) (rn rd : Reg) : Word :=
  c.code ++ 0b010#3 ++ 0b1100#4 ++ BitVec.ofBool l ++ bits4 rn ++ bits4 rd ++ 0#12

/-- The word of an instruction. -/
def encode : Instr → Word
  | .andImm c f rn rd rot imm8 => dpImmWord c .and f rn rd rot imm8
  | .andReg c f rn rd shamt kind rm => dpRegWord c .and f rn rd shamt kind rm
  | .eorImm c f rn rd rot imm8 => dpImmWord c .eor f rn rd rot imm8
  | .eorReg c f rn rd shamt kind rm => dpRegWord c .eor f rn rd shamt kind rm
  | .subImm c f rn rd rot imm8 => dpImmWord c .sub f rn rd rot imm8
  | .subReg c f rn rd shamt kind rm => dpRegWord c .sub f rn rd shamt kind rm
  | .rsbImm c f rn rd rot imm8 => dpImmWord c .rsb f rn rd rot imm8
  | .rsbReg c f rn rd shamt kind rm => dpRegWord c .rsb f rn rd shamt kind rm
  | .addImm c f rn rd rot imm8 => dpImmWord c .add f rn rd rot imm8
  | .addReg c f rn rd shamt kind rm => dpRegWord c .add f rn rd shamt kind rm
  | .adcImm c f rn rd rot imm8 => dpImmWord c .adc f rn rd rot imm8
  | .adcReg c f rn rd shamt kind rm => dpRegWord c .adc f rn rd shamt kind rm
  | .sbcImm c f rn rd rot imm8 => dpImmWord c .sbc f rn rd rot imm8
  | .sbcReg c f rn rd shamt kind rm => dpRegWord c .sbc f rn rd shamt kind rm
  | .rscImm c f rn rd rot imm8 => dpImmWord c .rsc f rn rd rot imm8
  | .rscReg c f rn rd shamt kind rm => dpRegWord c .rsc f rn rd shamt kind rm
  | .tstImm c rn rot imm8 => dpImmWord c .tst true rn 0 rot imm8
  | .tstReg c rn shamt kind rm => dpRegWord c .tst true rn 0 shamt kind rm
  | .teqImm c rn rot imm8 => dpImmWord c .teq true rn 0 rot imm8
  | .teqReg c rn shamt kind rm => dpRegWord c .teq true rn 0 shamt kind rm
  | .cmpImm c rn rot imm8 => dpImmWord c .cmp true rn 0 rot imm8
  | .cmpReg c rn shamt kind rm => dpRegWord c .cmp true rn 0 shamt kind rm
  | .cmnImm c rn rot imm8 => dpImmWord c .cmn true rn 0 rot imm8
  | .cmnReg c rn shamt kind rm => dpRegWord c .cmn true rn 0 shamt kind rm
  | .orrImm c f rn rd rot imm8 => dpImmWord c .orr f rn rd rot imm8
  | .orrReg c f rn rd shamt kind rm => dpRegWord c .orr f rn rd shamt kind rm
  | .movImm c f rd rot imm8 => dpImmWord c .mov f 0 rd rot imm8
  | .movReg c f rd shamt kind rm => dpRegWord c .mov f 0 rd shamt kind rm
  | .bicImm c f rn rd rot imm8 => dpImmWord c .bic f rn rd rot imm8
  | .bicReg c f rn rd shamt kind rm => dpRegWord c .bic f rn rd shamt kind rm
  | .mvnImm c f rd rot imm8 => dpImmWord c .mvn f 0 rd rot imm8
  | .mvnReg c f rd shamt kind rm => dpRegWord c .mvn f 0 rd shamt kind rm
  | .b c imm24 => branchWord c false imm24
  | .bl c imm24 => branchWord c true imm24
  | .ldr c rn rd => transferWord c true rn rd
  | .str c rn rd => transferWord c false rn rd

/-! ## The opcode table -/

/-- The mnemonic of an instruction, as spec/opcode_table.json spells it. -/
def Instr.mnemonic : Instr → String
  | .andImm _ _ _ _ _ _ => "AND"
  | .andReg _ _ _ _ _ _ _ => "AND"
  | .eorImm _ _ _ _ _ _ => "EOR"
  | .eorReg _ _ _ _ _ _ _ => "EOR"
  | .subImm _ _ _ _ _ _ => "SUB"
  | .subReg _ _ _ _ _ _ _ => "SUB"
  | .rsbImm _ _ _ _ _ _ => "RSB"
  | .rsbReg _ _ _ _ _ _ _ => "RSB"
  | .addImm _ _ _ _ _ _ => "ADD"
  | .addReg _ _ _ _ _ _ _ => "ADD"
  | .adcImm _ _ _ _ _ _ => "ADC"
  | .adcReg _ _ _ _ _ _ _ => "ADC"
  | .sbcImm _ _ _ _ _ _ => "SBC"
  | .sbcReg _ _ _ _ _ _ _ => "SBC"
  | .rscImm _ _ _ _ _ _ => "RSC"
  | .rscReg _ _ _ _ _ _ _ => "RSC"
  | .tstImm _ _ _ _ => "TST"
  | .tstReg _ _ _ _ _ => "TST"
  | .teqImm _ _ _ _ => "TEQ"
  | .teqReg _ _ _ _ _ => "TEQ"
  | .cmpImm _ _ _ _ => "CMP"
  | .cmpReg _ _ _ _ _ => "CMP"
  | .cmnImm _ _ _ _ => "CMN"
  | .cmnReg _ _ _ _ _ => "CMN"
  | .orrImm _ _ _ _ _ _ => "ORR"
  | .orrReg _ _ _ _ _ _ _ => "ORR"
  | .movImm _ _ _ _ _ => "MOV"
  | .movReg _ _ _ _ _ _ => "MOV"
  | .bicImm _ _ _ _ _ _ => "BIC"
  | .bicReg _ _ _ _ _ _ _ => "BIC"
  | .mvnImm _ _ _ _ _ => "MVN"
  | .mvnReg _ _ _ _ _ _ => "MVN"
  | .b _ _ => "B"
  | .bl _ _ => "BL"
  | .ldr _ _ _ => "LDR"
  | .str _ _ _ => "STR"

/-- A row of spec/opcode_table.json: a word w is of the row when `w & mask = pattern`. -/
structure OpcodeRow where
  mnemonic : String
  mask : Word
  pattern : Word
  deriving DecidableEq, Repr

/-- The word's fixed bits are the row's. -/
def OpcodeRow.matches (r : OpcodeRow) (w : Word) : Bool := w &&& r.mask == r.pattern

/-- The rows of format DP_IMM. -/
def dpImmRows : List OpcodeRow :=
  [ ⟨"AND", 0x0FE00000#32, 0x02000000#32⟩,
    ⟨"EOR", 0x0FE00000#32, 0x02200000#32⟩,
    ⟨"SUB", 0x0FE00000#32, 0x02400000#32⟩,
    ⟨"RSB", 0x0FE00000#32, 0x02600000#32⟩,
    ⟨"ADD", 0x0FE00000#32, 0x02800000#32⟩,
    ⟨"ADC", 0x0FE00000#32, 0x02A00000#32⟩,
    ⟨"SBC", 0x0FE00000#32, 0x02C00000#32⟩,
    ⟨"RSC", 0x0FE00000#32, 0x02E00000#32⟩,
    ⟨"TST", 0x0FF0F000#32, 0x03100000#32⟩,
    ⟨"TEQ", 0x0FF0F000#32, 0x03300000#32⟩,
    ⟨"CMP", 0x0FF0F000#32, 0x03500000#32⟩,
    ⟨"CMN", 0x0FF0F000#32, 0x03700000#32⟩,
    ⟨"ORR", 0x0FE00000#32, 0x03800000#32⟩,
    ⟨"MOV", 0x0FEF0000#32, 0x03A00000#32⟩,
    ⟨"BIC", 0x0FE00000#32, 0x03C00000#32⟩,
    ⟨"MVN", 0x0FEF0000#32, 0x03E00000#32⟩ ]

/-- The rows of format DP_REG. -/
def dpRegRows : List OpcodeRow :=
  [ ⟨"AND", 0x0FE00010#32, 0x00000000#32⟩,
    ⟨"EOR", 0x0FE00010#32, 0x00200000#32⟩,
    ⟨"SUB", 0x0FE00010#32, 0x00400000#32⟩,
    ⟨"RSB", 0x0FE00010#32, 0x00600000#32⟩,
    ⟨"ADD", 0x0FE00010#32, 0x00800000#32⟩,
    ⟨"ADC", 0x0FE00010#32, 0x00A00000#32⟩,
    ⟨"SBC", 0x0FE00010#32, 0x00C00000#32⟩,
    ⟨"RSC", 0x0FE00010#32, 0x00E00000#32⟩,
    ⟨"TST", 0x0FF0F010#32, 0x01100000#32⟩,
    ⟨"TEQ", 0x0FF0F010#32, 0x01300000#32⟩,
    ⟨"CMP", 0x0FF0F010#32, 0x01500000#32⟩,
    ⟨"CMN", 0x0FF0F010#32, 0x01700000#32⟩,
    ⟨"ORR", 0x0FE00010#32, 0x01800000#32⟩,
    ⟨"MOV", 0x0FEF0010#32, 0x01A00000#32⟩,
    ⟨"BIC", 0x0FE00010#32, 0x01C00000#32⟩,
    ⟨"MVN", 0x0FEF0010#32, 0x01E00000#32⟩ ]

/-- The rows of format BRANCH and LS_WORD. -/
def otherRows : List OpcodeRow :=
  [ ⟨"B", 0x0F000000#32, 0x0A000000#32⟩,
    ⟨"BL", 0x0F000000#32, 0x0B000000#32⟩,
    ⟨"LDR", 0x0FF00FFF#32, 0x05900000#32⟩,
    ⟨"STR", 0x0FF00FFF#32, 0x05800000#32⟩ ]

/-- The 36 rows of spec/opcode_table.json (30_encoding.md R62). -/
def opcodeTable : List OpcodeRow := dpImmRows ++ dpRegRows ++ otherRows

end Sys2Proof
end

