-- ==== Sys2Proof/Config.lean ====
section
/-! DEFINITION. The implementation parameters (00_scope.md R6) at the values that `State.reset` takes.
`construct` (Machine/HostPort.lean) takes them as arguments, and `MEM_SIZE` is a field of State. -/

namespace Sys2Proof

/-- The fetch mode: the CPSR T bit (10_state.md R25). -/
inductive Mode where
  /-- 4-byte fetch, full decode. -/
  | arm
  /-- 2-byte fetch, never decoded (30_encoding.md R60). -/
  | reduced
  deriving DecidableEq, Repr

/-- `MEM_SIZE` at `State.reset`. DESIGN CHOICE, unsafe (log entry 1): the parameter is OPEN (R6). -/
def Config.memSize : Nat := 2 ^ 32

/-- `RESET_PC` at `State.reset`. DESIGN CHOICE, unsafe (log entry 2): the parameter is OPEN (R6). -/
def Config.resetPc : Word := 0#32

/-- `INIT_MODE` at `State.reset`: the default of R6 (log entry 4). -/
def Config.initMode : Mode := .arm

/-- What a byte of memory that is not listed reads as. DESIGN CHOICE, unsafe (log entry 3). -/
def Config.unlistedByte : Byte := 0#8

end Sys2Proof
end

