-- ==== Sys2Proof/Machine/State.lean ====
section
/-! DEFINITION. The state of the block: the ExecutionState (10_state.md R26) and the memory buffer
(20_memory.md R31), as plain data; the faults and the refusal; the state after reset (10_state.md R30). -/

namespace Sys2Proof.Machine

/-- The memory buffer: the bytes that differ from what an unlisted address reads as, by rising address. -/
abbrev Memory := List Host.Cell

/-- The canonical form: addresses strictly rising, and no entry equal to what an unlisted address reads as. -/
abbrev Memory.wf (m : Memory) : Prop :=
  m.Pairwise (fun p q => p.1 < q.1) ∧ ∀ cell ∈ m, cell.2 ≠ Config.unlistedByte

/-- Everything the spec gives the block. -/
structure State where
  /-- The general registers; `x[15]` is the PC and `x[14]` the link register (10_state.md R15, R16). -/
  x : Vector Word 16
  /-- The current status register, laid out as 10_state.md R19 says. Its T bit is the mode (R25). -/
  cpsr : Word
  /-- The saved status register: held, never read or written (10_state.md R24). -/
  spsr : Word
  /-- The bytes of memory (20_memory.md R31). -/
  mem : Memory
  /-- `MEM_SIZE`: the memory's extent, fixed for the life of the CPU (20_memory.md R31). -/
  memSize : Nat
  deriving DecidableEq, Repr

/-- The fault kinds with their records (60_exceptions.md R126, R128). They are the block's own faults, each
raised where the spec raises it, so each is exact and none is a stop of the model's: safe. -/
inductive Fault where
  /-- Raised by a fetch out of bounds, and by LDR and STR at a misaligned or out-of-bounds address (R126):
  the instruction's address and the first byte of the access. Safe. -/
  | invalidAddress (pc address : Word)
  /-- Raised by a fetch at a PC that is not aligned to the fetch width (R126). Safe. -/
  | unalignedFetch (pc address : Word)
  /-- Raised by the cycle for condition 1111, for a word that does not decode, and for every reduced-mode
  fetch (R126): the instruction's address and the fetched word. Safe. -/
  | unsupportedInstruction (pc word : Word)
  deriving DecidableEq, Repr

/-- Refusals. The block has none: every word executes or faults (00_scope.md R10). -/
inductive Refusal where
  /-- Raised by an arm of `exec` for an instruction without a meaning; there is no such arm. Safe. -/
  | notModelled (mnemonic : String)
  deriving DecidableEq, Repr

/-- The outcome of a cycle or of an instruction. -/
abbrev Result := Host.Outcome State Fault Refusal

/-- The state after reset: all registers, the CPSR and the SPSR zero (10_state.md R30), ARM mode, the PC,
the memory's size and its contents as log entries 1 to 4 say. -/
def State.reset : State where
  x := (Vector.replicate 16 0#32).set 15 Config.resetPc
  cpsr := match Config.initMode with
    | .arm => 0#32
    | .reduced => 0x00000020#32
  spsr := 0#32
  mem := []
  memSize := Config.memSize

end Sys2Proof.Machine
end

