-- ==== Sys2Proof/Machine/Ops.lean ====
section
/-! DEFINITION. The named operations over registers, status and memory: accessors, the memory buffer, the
bounds and alignment checks, raising a fault, the fetch, and the memory access unit. -/

namespace Sys2Proof.Machine

/-! ## Registers and status -/

/-- `x[r]` (10_state.md R15). -/
def State.reg (s : State) (r : Reg) : Word := s.x[r.val]

/-- `x[r] <- v`. No register is hardwired (10_state.md R15). -/
def State.setReg (s : State) (r : Reg) (v : Word) : State := { s with x := s.x.set r.val v }

/-- The program counter, `x[15]` (10_state.md R16). -/
def State.pc (s : State) : Word := s.reg 15

/-- `pc <- target` (00_scope.md R9). -/
def State.setPc (s : State) (v : Word) : State := s.setReg 15 v

/-- CPSR bit 31, Negative (10_state.md R19). -/
def State.flagN (s : State) : Bool := s.cpsr.getLsbD 31

/-- CPSR bit 30, Zero (10_state.md R19). -/
def State.flagZ (s : State) : Bool := s.cpsr.getLsbD 30

/-- CPSR bit 29, Carry (10_state.md R19). -/
def State.flagC (s : State) : Bool := s.cpsr.getLsbD 29

/-- CPSR bit 28, Overflow (10_state.md R19). -/
def State.flagV (s : State) : Bool := s.cpsr.getLsbD 28

/-- The mode is CPSR bit 5 (10_state.md R25, R26). -/
def modeOfCpsr (cpsr : Word) : Mode := if cpsr.getLsbD 5 then .reduced else .arm

/-- The fetch mode (10_state.md R25). -/
def State.mode (s : State) : Mode := modeOfCpsr s.cpsr

/-- The fetch width W in bytes (10_state.md R17). -/
def fetchWidth : Mode → Nat
  | .arm => 4
  | .reduced => 2

/-- A status word with new N, Z, C and V and every other bit kept (10_state.md R19). -/
def withNzcv (cpsr : Word) (n z c v : Bool) : Word :=
  BitVec.ofBool n ++ BitVec.ofBool z ++ BitVec.ofBool c ++ BitVec.ofBool v ++ cpsr.extractLsb' 0 28

/-- Write N, Z, C and V. -/
def State.setNzcv (s : State) (n z c v : Bool) : State := { s with cpsr := withNzcv s.cpsr n z c v }

/-! ## The memory buffer -/

/-- The byte at an address (20_memory.md R31). -/
def Memory.read (m : Memory) (a : Nat) : Byte :=
  match m with
  | [] => Config.unlistedByte
  | (k, v) :: rest => if a = k then v else Memory.read rest a

/-- Put a byte at an address, keeping the canonical form. -/
def Memory.write (m : Memory) (a : Nat) (b : Byte) : Memory :=
  match m with
  | [] => if b = Config.unlistedByte then [] else [(a, b)]
  | (k, v) :: rest =>
    if a < k then (if b = Config.unlistedByte then (k, v) :: rest else (a, b) :: (k, v) :: rest)
    else if a = k then (if b = Config.unlistedByte then rest else (a, b) :: rest)
    else (k, v) :: Memory.write rest a b

/-- `MemRead(a, 4)` without its check: four bytes, little-endian (20_memory.md R35). -/
def Memory.readWord (m : Memory) (a : Nat) : Word :=
  wordOfBytes (m.read a) (m.read (a + 1)) (m.read (a + 2)) (m.read (a + 3))

/-- `MemRead(a, 2)` without its check: two bytes, little-endian (20_memory.md R35). -/
def Memory.readHalf (m : Memory) (a : Nat) : Half := m.read (a + 1) ++ m.read a

/-- `MemWrite(a, 4, v)` without its check: byte k of v at a + k (20_memory.md R36). -/
def Memory.writeWord (m : Memory) (a : Nat) (v : Word) : Memory :=
  (((m.write a (byteOfWord v 0)).write (a + 1) (byteOfWord v 1)).write (a + 2) (byteOfWord v 2)).write (a + 3)
    (byteOfWord v 3)

/-! ## Checks and faults -/

/-- The bounds check: n bytes at a, counted exactly, without wraparound (20_memory.md R34). -/
def inRange (memSize : Nat) (a : Word) (n : Nat) : Bool := a.toNat + n - 1 < memSize

/-- The address is a multiple of n (20_memory.md R40). -/
def alignedTo (a : Word) (n : Nat) : Bool := a.toNat % n == 0

/-- Raise a fault: the cycle ends, and none of its writes is kept. There is no exception entry: nothing is
saved, no mode changes, no vector is taken (60_exceptions.md R125, R127). -/
def raise (e : Fault) : Result := .fault e

/-- While an instruction executes, `x[15]` is its address + 4 (10_state.md R17), so its own address is
`x[15] - 4` (log entry 6). -/
def State.instrAddr (s : State) : Word := s.pc - 4#32

/-! ## Fetch -/

/-- The fetch at the PC: the alignment check, the bounds check, the little-endian read, a halfword
zero-extended (45_execution_loop.md R116, R118). -/
def State.fetch (s : State) : Except Fault Word :=
  if !alignedTo s.pc (fetchWidth s.mode) then .error (.unalignedFetch s.pc s.pc)
  else if !inRange s.memSize s.pc (fetchWidth s.mode) then .error (.invalidAddress s.pc s.pc)
  else match s.mode with
    | .arm => .ok (s.mem.readWord s.pc.toNat)
    | .reduced => .ok ((s.mem.readHalf s.pc.toNat).setWidth 32)

/-- The PC advance right after the fetch: `x[15] <- addr + W` modulo 2^32 (45_execution_loop.md R116). -/
def State.advance (s : State) : State := s.setPc (s.pc + BitVec.ofNat 32 (fetchWidth s.mode))

/-! ## The memory access unit -/

/-- The checks of LDR and STR: word alignment, then bounds (44_load_store.md R110). -/
def dataAccessOk (memSize : Nat) (a : Word) : Bool := alignedTo a 4 && inRange memSize a 4

/-- `MAU(a, 1, _)`: load the word at a (44_load_store.md R111). -/
def State.loadWord (s : State) (a : Word) : Except Fault Word :=
  if dataAccessOk s.memSize a then .ok (s.mem.readWord a.toNat) else .error (.invalidAddress s.instrAddr a)

/-- `MAU(a, 0, data)`: store the word at a (44_load_store.md R111). -/
def State.storeWord (s : State) (a : Word) (data : Word) : Except Fault State :=
  if dataAccessOk s.memSize a then .ok { s with mem := s.mem.writeWord a.toNat data }
  else .error (.invalidAddress s.instrAddr a)

end Sys2Proof.Machine
end

