-- ==== Sys2Proof/Machine/Operands.lean ====
section
/-! DEFINITION. The barrel shifter and operand 2 (41_shifter.md). -/

namespace Sys2Proof.Machine

/-- What the shifter gives: a result and a carry (41_shifter.md R71). -/
structure Shifted where
  result : Word
  carryOut : Bool
  deriving DecidableEq, Repr

/-- `ROR(v, n)` for n in 0..31 (00_scope.md R8). -/
def rotateRight (v : Word) (n : Nat) : Word := (v >>> n) ||| (v <<< (32 - n))

/-- LSL (41_shifter.md R72). -/
def shiftLsl (value : Word) (n : Nat) (carryIn : Bool) : Shifted :=
  if n = 0 then ⟨value, carryIn⟩ else ⟨value <<< n, value.getLsbD (32 - n)⟩

/-- LSR; the amount 0 means 32 (41_shifter.md R73). -/
def shiftLsr (value : Word) (n : Nat) : Shifted :=
  if n = 0 then ⟨0#32, value.getLsbD 31⟩ else ⟨value >>> n, value.getLsbD (n - 1)⟩

/-- ASR; the amount 0 means 32 (41_shifter.md R74). -/
def shiftAsr (value : Word) (n : Nat) : Shifted :=
  if n = 0 then ⟨if value.getLsbD 31 then 0xFFFFFFFF#32 else 0#32, value.getLsbD 31⟩
  else ⟨value.sshiftRight n, value.getLsbD (n - 1)⟩

/-- ROR; the amount 0 means RRX (41_shifter.md R75). -/
def shiftRor (value : Word) (n : Nat) (carryIn : Bool) : Shifted :=
  if n = 0 then ⟨((BitVec.ofBool carryIn).setWidth 32 <<< 31) ||| (value >>> 1), value.getLsbD 0⟩
  else ⟨rotateRight value n, value.getLsbD (n - 1)⟩

/-- The barrel shifter (41_shifter.md R71). -/
def shift (value : Word) (kind : ShiftKind) (amount : Fin 32) (carryIn : Bool) : Shifted :=
  match kind with
  | .lsl => shiftLsl value amount.val carryIn
  | .lsr => shiftLsr value amount.val
  | .asr => shiftAsr value amount.val
  | .ror => shiftRor value amount.val carryIn

/-- The rotated immediate; a rotation of 0 passes C through (41_shifter.md R77). -/
def immOperand (rot : Fin 16) (imm8 : Byte) (carryIn : Bool) : Shifted :=
  let op2 := rotateRight (imm8.setWidth 32) (2 * rot.val)
  ⟨op2, if rot = 0 then carryIn else op2.getLsbD 31⟩

/-- Operand 2 and the shifter carry, read from the state (41_shifter.md R76, R77). -/
def operand2 (o : Operand2) (s : State) : Shifted :=
  match o with
  | .imm rot imm8 => immOperand rot imm8 s.flagC
  | .shifted rm kind shamt => shift (s.reg rm) kind shamt s.flagC

/-- The value of operand 2. -/
def State.op2Value (s : State) (o : Operand2) : Word := (operand2 o s).result

/-- The shifter carry of operand 2. -/
def State.op2Carry (s : State) (o : Operand2) : Bool := (operand2 o s).carryOut

end Sys2Proof.Machine
end

