-- ==== Sys2Proof/Machine/Flags.lean ====
section
/-! DEFINITION. The condition evaluator (40_condition.md), the adder and the ALU, and the flag updater
(42_data_processing.md R79 to R86). -/

namespace Sys2Proof.Machine

/-! ## The condition evaluator -/

/-- The relation of N, Z, C and V that a condition names (40_condition.md R67). -/
def condHolds (k : Cond) (n z c v : Bool) : Bool :=
  match k with
  | .eq => z
  | .ne => !z
  | .cs => c
  | .cc => !c
  | .mi => n
  | .pl => !n
  | .vs => v
  | .vc => !v
  | .hi => c && !z
  | .ls => !c || z
  | .ge => n == v
  | .lt => n != v
  | .gt => !z && n == v
  | .le => z || n != v
  | .al => true

/-- What the evaluator answers (40_condition.md R67). -/
inductive CondResult where
  | pass | fail | reserved
  deriving DecidableEq, Repr

/-- `evaluate(code, N, Z, C, V)` (40_condition.md R67, R68). -/
def evaluate (code : BitVec 4) (n z c v : Bool) : CondResult :=
  match Cond.ofCode code with
  | none => .reserved
  | some k => if condHolds k n z c v then .pass else .fail

/-- The condition passes on the flags of a state (40_condition.md R69). -/
def State.passes (s : State) (k : Cond) : Bool := condHolds k s.flagN s.flagZ s.flagC s.flagV

/-- The evaluator on the condition field of a word and the flags of a state (45_execution_loop.md R117). -/
def State.evaluates (s : State) (inst : Word) : CondResult :=
  evaluate (inst.extractLsb' 28 4) s.flagN s.flagZ s.flagC s.flagV

/-- Gate an instruction's effects on its condition: a failed condition does nothing more (40_condition.md
R70). A cycle tests the condition before decoding as well (log entry 7). -/
def whenPasses (k : Cond) (s : State) (effect : State → Result) : Result :=
  if s.passes k then effect s else .next s

/-! ## The ALU -/

/-- What the ALU gives (42_data_processing.md R79). -/
structure AluOut where
  result : Word
  carryOut : Bool
  overflowOut : Bool
  deriving DecidableEq, Repr

/-- The adder with carry in, computed exactly and narrowed (42_data_processing.md R81). -/
def addWithCarry (a b : Word) (cin : Bool) : AluOut :=
  let sum := a.toNat + b.toNat + cin.toNat
  let ssum := a.toInt + b.toInt + (cin.toNat : Int)
  ⟨BitVec.ofNat 32 sum, decide (2 ^ 32 ≤ sum), decide (ssum < -2 ^ 31 ∨ 2 ^ 31 - 1 < ssum)⟩

/-- The ALU group of an opcode (42_data_processing.md R79). -/
def aluGroup : DpOp → AluGroup
  | .and | .eor | .tst | .teq | .orr | .mov | .bic | .mvn => .logical
  | .sub | .rsb | .add | .adc | .sbc | .rsc | .cmp | .cmn => .arithmetic

/-- The ALU: a table of sixteen functions (42_data_processing.md R79, R80, R82). -/
def alu (op : DpOp) (op1 op2 : Word) (carryIn shifterCarry vIn : Bool) : AluOut :=
  match op with
  | .and => ⟨op1 &&& op2, shifterCarry, vIn⟩
  | .eor => ⟨op1 ^^^ op2, shifterCarry, vIn⟩
  | .sub => addWithCarry op1 (~~~op2) true
  | .rsb => addWithCarry op2 (~~~op1) true
  | .add => addWithCarry op1 op2 false
  | .adc => addWithCarry op1 op2 carryIn
  | .sbc => addWithCarry op1 (~~~op2) carryIn
  | .rsc => addWithCarry op2 (~~~op1) carryIn
  | .tst => ⟨op1 &&& op2, shifterCarry, vIn⟩
  | .teq => ⟨op1 ^^^ op2, shifterCarry, vIn⟩
  | .cmp => addWithCarry op1 (~~~op2) true
  | .cmn => addWithCarry op1 op2 false
  | .orr => ⟨op1 ||| op2, shifterCarry, vIn⟩
  | .mov => ⟨op2, shifterCarry, vIn⟩
  | .bic => ⟨op1 &&& ~~~op2, shifterCarry, vIn⟩
  | .mvn => ⟨~~~op2, shifterCarry, vIn⟩

/-! ## The flag updater -/

/-- The V that flag setting writes: the overflow out, and for the logical group the old V
(42_data_processing.md R85). -/
def newOverflow (group : AluGroup) (o : AluOut) (vOld : Bool) : Bool :=
  match group with
  | .arithmetic => o.overflowOut
  | .logical => vOld

/-- `FlagUpdate`: N, Z and C, and V for the arithmetic group; without S the CPSR is not written
(42_data_processing.md R85). -/
def flagUpdate (setFlags : Bool) (group : AluGroup) (o : AluOut) (s : State) : State :=
  if setFlags then
    s.setNzcv (o.result.getLsbD 31) (o.result == 0#32) o.carryOut
      (newOverflow group o s.flagV)
  else s

/-! ## Data processing -/

/-- `ExecDP`: every read, then the register write that a test-only opcode omits, then the flags
(42_data_processing.md R84, R87). -/
def execDp (op : DpOp) (f : Bool) (rn rd : Reg) (o : Operand2) (s : State) : Result :=
  let out := alu op (s.reg rn) (s.op2Value o) s.flagC (s.op2Carry o) s.flagV
  let written := if op.testOnly then s else s.setReg rd out.result
  .next (flagUpdate f (aluGroup op) out written)

end Sys2Proof.Machine
end

