-- ==== Sys2Proof/Machine/Arithmetic.lean ====
section
/-! DEFINITION. The meanings of the arithmetic group: SUB, RSB, ADD, ADC, SBC, RSC, CMP and CMN
(42_data_processing.md R82, R90 to R95, R98, R99). -/

namespace Sys2Proof.Machine

/-- SUB, immediate operand 2 (42_data_processing.md R90). -/
def execSubImm (c : Cond) (f : Bool) (rn rd : Reg) (rot : Fin 16) (imm8 : Byte) (s : State) : Result :=
  whenPasses c s (execDp .sub f rn rd (.imm rot imm8))

/-- SUB, shifted register operand 2 (42_data_processing.md R90). -/
def execSubReg (c : Cond) (f : Bool) (rn rd : Reg) (shamt : Fin 32) (kind : ShiftKind) (rm : Reg) (s : State) : Result :=
  whenPasses c s (execDp .sub f rn rd (.shifted rm kind shamt))

/-- RSB, immediate operand 2 (42_data_processing.md R91). -/
def execRsbImm (c : Cond) (f : Bool) (rn rd : Reg) (rot : Fin 16) (imm8 : Byte) (s : State) : Result :=
  whenPasses c s (execDp .rsb f rn rd (.imm rot imm8))

/-- RSB, shifted register operand 2 (42_data_processing.md R91). -/
def execRsbReg (c : Cond) (f : Bool) (rn rd : Reg) (shamt : Fin 32) (kind : ShiftKind) (rm : Reg) (s : State) : Result :=
  whenPasses c s (execDp .rsb f rn rd (.shifted rm kind shamt))

/-- ADD, immediate operand 2 (42_data_processing.md R92). -/
def execAddImm (c : Cond) (f : Bool) (rn rd : Reg) (rot : Fin 16) (imm8 : Byte) (s : State) : Result :=
  whenPasses c s (execDp .add f rn rd (.imm rot imm8))

/-- ADD, shifted register operand 2 (42_data_processing.md R92). -/
def execAddReg (c : Cond) (f : Bool) (rn rd : Reg) (shamt : Fin 32) (kind : ShiftKind) (rm : Reg) (s : State) : Result :=
  whenPasses c s (execDp .add f rn rd (.shifted rm kind shamt))

/-- ADC, immediate operand 2 (42_data_processing.md R93). -/
def execAdcImm (c : Cond) (f : Bool) (rn rd : Reg) (rot : Fin 16) (imm8 : Byte) (s : State) : Result :=
  whenPasses c s (execDp .adc f rn rd (.imm rot imm8))

/-- ADC, shifted register operand 2 (42_data_processing.md R93). -/
def execAdcReg (c : Cond) (f : Bool) (rn rd : Reg) (shamt : Fin 32) (kind : ShiftKind) (rm : Reg) (s : State) : Result :=
  whenPasses c s (execDp .adc f rn rd (.shifted rm kind shamt))

/-- SBC, immediate operand 2 (42_data_processing.md R94). -/
def execSbcImm (c : Cond) (f : Bool) (rn rd : Reg) (rot : Fin 16) (imm8 : Byte) (s : State) : Result :=
  whenPasses c s (execDp .sbc f rn rd (.imm rot imm8))

/-- SBC, shifted register operand 2 (42_data_processing.md R94). -/
def execSbcReg (c : Cond) (f : Bool) (rn rd : Reg) (shamt : Fin 32) (kind : ShiftKind) (rm : Reg) (s : State) : Result :=
  whenPasses c s (execDp .sbc f rn rd (.shifted rm kind shamt))

/-- RSC, immediate operand 2 (42_data_processing.md R95). -/
def execRscImm (c : Cond) (f : Bool) (rn rd : Reg) (rot : Fin 16) (imm8 : Byte) (s : State) : Result :=
  whenPasses c s (execDp .rsc f rn rd (.imm rot imm8))

/-- RSC, shifted register operand 2 (42_data_processing.md R95). -/
def execRscReg (c : Cond) (f : Bool) (rn rd : Reg) (shamt : Fin 32) (kind : ShiftKind) (rm : Reg) (s : State) : Result :=
  whenPasses c s (execDp .rsc f rn rd (.shifted rm kind shamt))

/-- CMP, immediate operand 2 (42_data_processing.md R98). -/
def execCmpImm (c : Cond) (rn : Reg) (rot : Fin 16) (imm8 : Byte) (s : State) : Result :=
  whenPasses c s (execDp .cmp true rn 0 (.imm rot imm8))

/-- CMP, shifted register operand 2 (42_data_processing.md R98). -/
def execCmpReg (c : Cond) (rn : Reg) (shamt : Fin 32) (kind : ShiftKind) (rm : Reg) (s : State) : Result :=
  whenPasses c s (execDp .cmp true rn 0 (.shifted rm kind shamt))

/-- CMN, immediate operand 2 (42_data_processing.md R99). -/
def execCmnImm (c : Cond) (rn : Reg) (rot : Fin 16) (imm8 : Byte) (s : State) : Result :=
  whenPasses c s (execDp .cmn true rn 0 (.imm rot imm8))

/-- CMN, shifted register operand 2 (42_data_processing.md R99). -/
def execCmnReg (c : Cond) (rn : Reg) (shamt : Fin 32) (kind : ShiftKind) (rm : Reg) (s : State) : Result :=
  whenPasses c s (execDp .cmn true rn 0 (.shifted rm kind shamt))

end Sys2Proof.Machine
end

