-- ==== Sys2Proof/Machine/Branch.lean ====
section
/-! DEFINITION. The branch resolver and the meanings of B and BL (43_branch.md). -/

namespace Sys2Proof.Machine

/-- `sext_24(imm24) << 2` (43_branch.md R104). -/
def branchOffset (imm24 : BitVec 24) : Word := imm24.signExtend 32 <<< 2

/-- `addr + 4 + offset` modulo 2^32; `addr + 4` is what `x[15]` holds during execute (43_branch.md R105). -/
def State.branchTarget (s : State) (imm24 : BitVec 24) : Word := s.pc + branchOffset imm24

/-- B (43_branch.md R107). -/
def execB (c : Cond) (imm24 : BitVec 24) (s : State) : Result :=
  whenPasses c s fun s => .next (s.setPc (s.branchTarget imm24))

/-- BL: the return address to `x[14]`, then the target to the PC (43_branch.md R106, R108). -/
def execBl (c : Cond) (imm24 : BitVec 24) (s : State) : Result :=
  whenPasses c s fun s => .next ((s.setReg 14 s.pc).setPc (s.branchTarget imm24))

end Sys2Proof.Machine
end

