-- ==== Sys2Proof/Machine/LoadStore.lean ====
section
/-! DEFINITION. The meanings of LDR and STR (44_load_store.md R109 to R114). -/

namespace Sys2Proof.Machine

/-- LDR: the address is read, checked, then `x[Rd]` gets the word; Rd = 15 jumps (44_load_store.md R112). -/
def execLdr (c : Cond) (rn rd : Reg) (s : State) : Result :=
  whenPasses c s fun s =>
    match s.loadWord (s.reg rn) with
    | .error e => raise e
    | .ok v => .next (s.setReg rd v)

/-- STR: the address is read, checked, then the four bytes of `x[Rd]` are stored (44_load_store.md R113). -/
def execStr (c : Cond) (rn rd : Reg) (s : State) : Result :=
  whenPasses c s fun s =>
    match s.storeWord (s.reg rn) (s.reg rd) with
    | .error e => raise e
    | .ok t => .next t

end Sys2Proof.Machine
end

