-- ==== Sys2Proof/Machine/Logical.lean ====
section
/-! DEFINITION. The meanings of the logical group: AND, EOR, TST, TEQ, ORR, MOV, BIC and MVN
(42_data_processing.md R80, R88, R89, R96, R97, R100 to R103). -/

namespace Sys2Proof.Machine

/-- AND, immediate operand 2 (42_data_processing.md R88). -/
def execAndImm (c : Cond) (f : Bool) (rn rd : Reg) (rot : Fin 16) (imm8 : Byte) (s : State) : Result :=
  whenPasses c s (execDp .and f rn rd (.imm rot imm8))

/-- AND, shifted register operand 2 (42_data_processing.md R88). -/
def execAndReg (c : Cond) (f : Bool) (rn rd : Reg) (shamt : Fin 32) (kind : ShiftKind) (rm : Reg) (s : State) : Result :=
  whenPasses c s (execDp .and f rn rd (.shifted rm kind shamt))

/-- EOR, immediate operand 2 (42_data_processing.md R89). -/
def execEorImm (c : Cond) (f : Bool) (rn rd : Reg) (rot : Fin 16) (imm8 : Byte) (s : State) : Result :=
  whenPasses c s (execDp .eor f rn rd (.imm rot imm8))

/-- EOR, shifted register operand 2 (42_data_processing.md R89). -/
def execEorReg (c : Cond) (f : Bool) (rn rd : Reg) (shamt : Fin 32) (kind : ShiftKind) (rm : Reg) (s : State) : Result :=
  whenPasses c s (execDp .eor f rn rd (.shifted rm kind shamt))

/-- TST, immediate operand 2 (42_data_processing.md R96). -/
def execTstImm (c : Cond) (rn : Reg) (rot : Fin 16) (imm8 : Byte) (s : State) : Result :=
  whenPasses c s (execDp .tst true rn 0 (.imm rot imm8))

/-- TST, shifted register operand 2 (42_data_processing.md R96). -/
def execTstReg (c : Cond) (rn : Reg) (shamt : Fin 32) (kind : ShiftKind) (rm : Reg) (s : State) : Result :=
  whenPasses c s (execDp .tst true rn 0 (.shifted rm kind shamt))

/-- TEQ, immediate operand 2 (42_data_processing.md R97). -/
def execTeqImm (c : Cond) (rn : Reg) (rot : Fin 16) (imm8 : Byte) (s : State) : Result :=
  whenPasses c s (execDp .teq true rn 0 (.imm rot imm8))

/-- TEQ, shifted register operand 2 (42_data_processing.md R97). -/
def execTeqReg (c : Cond) (rn : Reg) (shamt : Fin 32) (kind : ShiftKind) (rm : Reg) (s : State) : Result :=
  whenPasses c s (execDp .teq true rn 0 (.shifted rm kind shamt))

/-- ORR, immediate operand 2 (42_data_processing.md R100). -/
def execOrrImm (c : Cond) (f : Bool) (rn rd : Reg) (rot : Fin 16) (imm8 : Byte) (s : State) : Result :=
  whenPasses c s (execDp .orr f rn rd (.imm rot imm8))

/-- ORR, shifted register operand 2 (42_data_processing.md R100). -/
def execOrrReg (c : Cond) (f : Bool) (rn rd : Reg) (shamt : Fin 32) (kind : ShiftKind) (rm : Reg) (s : State) : Result :=
  whenPasses c s (execDp .orr f rn rd (.shifted rm kind shamt))

/-- MOV, immediate operand 2 (42_data_processing.md R101). -/
def execMovImm (c : Cond) (f : Bool) (rd : Reg) (rot : Fin 16) (imm8 : Byte) (s : State) : Result :=
  whenPasses c s (execDp .mov f 0 rd (.imm rot imm8))

/-- MOV, shifted register operand 2 (42_data_processing.md R101). -/
def execMovReg (c : Cond) (f : Bool) (rd : Reg) (shamt : Fin 32) (kind : ShiftKind) (rm : Reg) (s : State) : Result :=
  whenPasses c s (execDp .mov f 0 rd (.shifted rm kind shamt))

/-- BIC, immediate operand 2 (42_data_processing.md R102). -/
def execBicImm (c : Cond) (f : Bool) (rn rd : Reg) (rot : Fin 16) (imm8 : Byte) (s : State) : Result :=
  whenPasses c s (execDp .bic f rn rd (.imm rot imm8))

/-- BIC, shifted register operand 2 (42_data_processing.md R102). -/
def execBicReg (c : Cond) (f : Bool) (rn rd : Reg) (shamt : Fin 32) (kind : ShiftKind) (rm : Reg) (s : State) : Result :=
  whenPasses c s (execDp .bic f rn rd (.shifted rm kind shamt))

/-- MVN, immediate operand 2 (42_data_processing.md R103). -/
def execMvnImm (c : Cond) (f : Bool) (rd : Reg) (rot : Fin 16) (imm8 : Byte) (s : State) : Result :=
  whenPasses c s (execDp .mvn f 0 rd (.imm rot imm8))

/-- MVN, shifted register operand 2 (42_data_processing.md R103). -/
def execMvnReg (c : Cond) (f : Bool) (rd : Reg) (shamt : Fin 32) (kind : ShiftKind) (rm : Reg) (s : State) : Result :=
  whenPasses c s (execDp .mvn f 0 rd (.shifted rm kind shamt))

end Sys2Proof.Machine
end

