-- ==== Sys2Proof/Machine/Dispatch.lean ====
section
/-! DEFINITION. Execution of a decoded instruction, in the state after the fetch's PC advance
(45_execution_loop.md R119): one arm per constructor. -/

namespace Sys2Proof.Machine

def exec (i : Instr) (s : State) : Host.Outcome State Fault Refusal :=
  match i with
  | .andImm c f rn rd rot imm8 => Sys2Proof.Machine.execAndImm c f rn rd rot imm8 s
  | .andReg c f rn rd shamt kind rm => Sys2Proof.Machine.execAndReg c f rn rd shamt kind rm s
  | .eorImm c f rn rd rot imm8 => Sys2Proof.Machine.execEorImm c f rn rd rot imm8 s
  | .eorReg c f rn rd shamt kind rm => Sys2Proof.Machine.execEorReg c f rn rd shamt kind rm s
  | .subImm c f rn rd rot imm8 => Sys2Proof.Machine.execSubImm c f rn rd rot imm8 s
  | .subReg c f rn rd shamt kind rm => Sys2Proof.Machine.execSubReg c f rn rd shamt kind rm s
  | .rsbImm c f rn rd rot imm8 => Sys2Proof.Machine.execRsbImm c f rn rd rot imm8 s
  | .rsbReg c f rn rd shamt kind rm => Sys2Proof.Machine.execRsbReg c f rn rd shamt kind rm s
  | .addImm c f rn rd rot imm8 => Sys2Proof.Machine.execAddImm c f rn rd rot imm8 s
  | .addReg c f rn rd shamt kind rm => Sys2Proof.Machine.execAddReg c f rn rd shamt kind rm s
  | .adcImm c f rn rd rot imm8 => Sys2Proof.Machine.execAdcImm c f rn rd rot imm8 s
  | .adcReg c f rn rd shamt kind rm => Sys2Proof.Machine.execAdcReg c f rn rd shamt kind rm s
  | .sbcImm c f rn rd rot imm8 => Sys2Proof.Machine.execSbcImm c f rn rd rot imm8 s
  | .sbcReg c f rn rd shamt kind rm => Sys2Proof.Machine.execSbcReg c f rn rd shamt kind rm s
  | .rscImm c f rn rd rot imm8 => Sys2Proof.Machine.execRscImm c f rn rd rot imm8 s
  | .rscReg c f rn rd shamt kind rm => Sys2Proof.Machine.execRscReg c f rn rd shamt kind rm s
  | .tstImm c rn rot imm8 => Sys2Proof.Machine.execTstImm c rn rot imm8 s
  | .tstReg c rn shamt kind rm => Sys2Proof.Machine.execTstReg c rn shamt kind rm s
  | .teqImm c rn rot imm8 => Sys2Proof.Machine.execTeqImm c rn rot imm8 s
  | .teqReg c rn shamt kind rm => Sys2Proof.Machine.execTeqReg c rn shamt kind rm s
  | .cmpImm c rn rot imm8 => Sys2Proof.Machine.execCmpImm c rn rot imm8 s
  | .cmpReg c rn shamt kind rm => Sys2Proof.Machine.execCmpReg c rn shamt kind rm s
  | .cmnImm c rn rot imm8 => Sys2Proof.Machine.execCmnImm c rn rot imm8 s
  | .cmnReg c rn shamt kind rm => Sys2Proof.Machine.execCmnReg c rn shamt kind rm s
  | .orrImm c f rn rd rot imm8 => Sys2Proof.Machine.execOrrImm c f rn rd rot imm8 s
  | .orrReg c f rn rd shamt kind rm => Sys2Proof.Machine.execOrrReg c f rn rd shamt kind rm s
  | .movImm c f rd rot imm8 => Sys2Proof.Machine.execMovImm c f rd rot imm8 s
  | .movReg c f rd shamt kind rm => Sys2Proof.Machine.execMovReg c f rd shamt kind rm s
  | .bicImm c f rn rd rot imm8 => Sys2Proof.Machine.execBicImm c f rn rd rot imm8 s
  | .bicReg c f rn rd shamt kind rm => Sys2Proof.Machine.execBicReg c f rn rd shamt kind rm s
  | .mvnImm c f rd rot imm8 => Sys2Proof.Machine.execMvnImm c f rd rot imm8 s
  | .mvnReg c f rd shamt kind rm => Sys2Proof.Machine.execMvnReg c f rd shamt kind rm s
  | .b c imm24 => Sys2Proof.Machine.execB c imm24 s
  | .bl c imm24 => Sys2Proof.Machine.execBl c imm24 s
  | .ldr c rn rd => Sys2Proof.Machine.execLdr c rn rd s
  | .str c rn rd => Sys2Proof.Machine.execStr c rn rd s

end Sys2Proof.Machine
end

