-- ==== Sys2Proof/Machine/Cycle.lean ====
section
/-! DEFINITION. One cycle of the execution loop (45_execution_loop.md R115) and placing a word where the next
fetch reads it. -/

namespace Sys2Proof.Machine

/-- The cycle after a fetch that did not fault: reduced mode, the condition, decode, execute, in that order
(45_execution_loop.md R115, R117 to R119; the order of the checks is 60_exceptions.md R129). -/
def cycleOn (s : State) (inst : Word) : Result :=
  match s.mode with
  | .reduced => raise (.unsupportedInstruction s.pc inst)
  | .arm =>
    match s.evaluates inst with
    | .reserved => raise (.unsupportedInstruction s.pc inst)
    | .fail => .next s.advance
    | .pass =>
      match decodeWord inst with
      | .error _ => raise (.unsupportedInstruction s.pc inst)
      | .ok i => exec i s.advance

/-- `Step(s, mem)` (45_execution_loop.md R115). -/
def cycle (s : State) : Result :=
  match s.fetch with
  | .error e => raise e
  | .ok inst => cycleOn s inst

/-- The state with a word stored at the PC, little-endian (20_memory.md R39). -/
def State.placeWord (s : State) (v : Word) : State := { s with mem := s.mem.writeWord s.pc.toNat v }

end Sys2Proof.Machine
end

