-- ==== Sys2Proof/Machine/Step.lean ====
section
/-! DEFINITION. The step of the machine, and the placing of the next instruction. -/

namespace Sys2Proof.Machine

/-- One step is one cycle (00_scope.md R10). -/
def step (s : State) : Host.Outcome State Fault Refusal := cycle s

/-- `s` with the instruction in the low `nbits` bits of `w` stored where the next fetch reads (log entry 5). -/
def State.withFetchWord (s : State) (nbits w : Nat) : State := s.placeWord (BitVec.ofNat 32 (w % 2 ^ nbits))

end Sys2Proof.Machine
end

