-- ==== Sys2Proof/Machine/Batch.lean ====
section
/-! DEFINITION. The batch interface `stepBatch` (45_execution_loop.md R121 to R123). -/

namespace Sys2Proof.Machine

/-- How a batch ended. -/
inductive BatchEnd where
  /-- All cycles retired. -/
  | completed
  /-- A cycle faulted; its record (60_exceptions.md R127, R128). -/
  | faulted (record : Fault)
  /-- Never: no cycle refuses (00_scope.md R10). -/
  | refused (r : Refusal)
  deriving DecidableEq, Repr

/-- What a batch returns: the state as of the last retired cycle, and how it ended (45_execution_loop.md R121). -/
structure BatchResult where
  state : State
  ending : BatchEnd
  deriving DecidableEq, Repr

/-- At most n cycles, stopping at the first that does not retire (45_execution_loop.md R121). -/
def runCycles (n : Nat) (s : State) : BatchResult :=
  match n with
  | 0 => ⟨s, .completed⟩
  | k + 1 =>
    match step s with
    | .next t => runCycles k t
    | .fault e => ⟨s, .faulted e⟩
    | .refused r => ⟨s, .refused r⟩

/-- `stepBatch(count)`, without the trace (45_execution_loop.md R121, R122; log entry 9). -/
def stepBatch (count : Word) (s : State) : BatchResult := runCycles count.toNat s

end Sys2Proof.Machine
end

