-- ==== Sys2Proof/Machine/HostPort.lean ====
section
/-! DEFINITION. What the host does outside a batch: construction, the snapshot, and writes to the shared
buffer (70_reset_and_hazards.md R137 to R139; 20_memory.md R44). -/

namespace Sys2Proof.Machine

/-- The ExecutionState: what a batch returns (10_state.md R26). -/
structure Snapshot where
  x : Vector Word 16
  cpsr : Word
  spsr : Word
  mode : Mode
  deriving DecidableEq, Repr

/-- The snapshot of a state; its mode is CPSR bit 5 (10_state.md R26). -/
def State.snapshot (s : State) : Snapshot := ⟨s.x, s.cpsr, s.spsr, s.mode⟩

/-- The CPSR with its reserved bits 0 and its T bit the mode (70_reset_and_hazards.md R138). -/
def snapshotCpsr (cpsr : Word) (mode : Mode) : Word :=
  (cpsr &&& 0xF0000000#32) ||| (match mode with
    | .arm => 0#32
    | .reduced => 0x00000020#32)

/-- Construction from a snapshot, over a memory buffer (70_reset_and_hazards.md R138). -/
def constructFrom (mem : Memory) (memSize : Nat) (snap : Snapshot) : State where
  x := snap.x
  cpsr := snapshotCpsr snap.cpsr snap.mode
  spsr := snap.spsr
  mem := mem
  memSize := memSize

/-- `construct(memory, initialPC, mode, traceEnabled)` (70_reset_and_hazards.md R137). Tracing changes no state
and is left out (00_scope.md R13; log entry 9). -/
def construct (mem : Memory) (memSize : Nat) (initialPc : Word) (mode : Mode) : State :=
  constructFrom mem memSize ⟨(Vector.replicate 16 0#32).set 15 initialPc, 0#32, 0#32, mode⟩

/-- The host changes one byte of the shared buffer between batches (20_memory.md R44). The buffer has no byte
outside its extent (R31). -/
def State.hostWrite (s : State) (a : Nat) (b : Byte) : State :=
  if a < s.memSize then { s with mem := s.mem.write a b } else s

end Sys2Proof.Machine
end

