-- ==== Sys2Proof/Safety.lean ====
section
/-! DEFINITION. What claims call a legal state and a safe run. -/

namespace Sys2Proof.Machine

/-- The legal states: what every construction gives and every cycle keeps. Memory is in canonical form and
inside its extent (20_memory.md R31), the extent is from 1 to 2^32 (00_scope.md R6), and the reserved CPSR
bits read as zero (10_state.md R19). -/
structure State.Legal (s : State) : Prop where
  memCanonical : s.mem.wf
  memInExtent : ∀ cell ∈ s.mem, cell.1 < s.memSize
  sizePositive : 1 ≤ s.memSize
  sizeBounded : s.memSize ≤ 2 ^ 32
  reservedZero : s.cpsr &&& 0x0FFFFFDF#32 = 0#32

/-- A safe run: `n` cycles from `s` retire, none faults, and `t` is the state after them. -/
def RunsTo (n : Nat) (s t : State) : Prop :=
  match n with
  | 0 => t = s
  | k + 1 => ∃ u, step s = .next u ∧ RunsTo k u t

end Sys2Proof.Machine
end

