-- ==== Sys2Proof/Certificates/Slice0/Obligations.lean ====
section
/-! DEFINITION. The statements for the provers, and the few words they are written in. No statement rests on a
value the model chose (log entries 1 to 4), but for the one that names State.reset and says so. -/

namespace Sys2Proof.Claims

open Sys2Proof.Machine

/-- An exact signed number lies outside the 32-bit two's-complement range (42_data_processing.md R81). -/
def outside (z : Int) : Bool := decide (z < -2 ^ 31 ∨ 2 ^ 31 - 1 < z)

/-- Pass if the relation holds, else fail. -/
def passIf (p : Prop) [Decidable p] : CondResult := if p then .pass else .fail

/-- The n bytes at a, read little-endian as a number (20_memory.md R35). -/
def littleEndian (m : Memory) (a n : Nat) : Nat :=
  match n with
  | 0 => 0
  | k + 1 => (m.read a).toNat + 256 * littleEndian m (a + 1) k

/-- The address is a multiple of 4 and its four bytes lie inside memory, counted exactly (44_load_store.md R110). -/
def WordInMemory (memSize : Nat) (a : Word) : Prop := a.toNat % 4 = 0 ∧ a.toNat + 3 < memSize

/-- An ARM-mode cycle from s fetches the word w. -/
def FetchesArm (s : State) (w : Word) : Prop := s.mode = .arm ∧ s.fetch = .ok w

/-- The SPSR, the memory size and every byte of memory are as before. -/
def RestUnchanged (s t : State) : Prop :=
  t.spsr = s.spsr ∧ t.memSize = s.memSize ∧ ∀ a : Nat, t.mem.read a = s.mem.read a

/-- N and Z of a result, and these C and V, are in the CPSR of t. -/
def HasFlags (t : State) (res : Word) (carry overflow : Bool) : Prop :=
  t.flagN = res.getLsbD 31 ∧ t.flagZ = decide (res = 0#32) ∧ t.flagC = carry ∧ t.flagV = overflow

/-- The CPSR bits that are no flag are as before. -/
def LowCpsrUnchanged (s t : State) : Prop := ∀ k : Nat, k < 28 → t.cpsr.getLsbD k = s.cpsr.getLsbD k

/-- The instruction retires: Rd holds the result (Rd = 15 jumps to it), the flags are written if f and the
CPSR is untouched if not, and nothing else changes (42_data_processing.md R85, R87). -/
def Writes (i : Instr) (s : State) (rd : Reg) (f : Bool) (res : Word) (carry overflow : Bool) : Prop :=
  ∃ t, exec i s = .next t ∧ t.reg rd = res ∧ (∀ r : Reg, r ≠ rd → t.reg r = s.reg r) ∧
    (f = true → HasFlags t res carry overflow ∧ LowCpsrUnchanged s t) ∧ (f = false → t.cpsr = s.cpsr) ∧
    RestUnchanged s t

/-- The instruction retires: the flags are written, and nothing else changes (42_data_processing.md R84). -/
def SetsFlags (i : Instr) (s : State) (res : Word) (carry overflow : Bool) : Prop :=
  ∃ t, exec i s = .next t ∧ (∀ r : Reg, t.reg r = s.reg r) ∧ HasFlags t res carry overflow ∧
    LowCpsrUnchanged s t ∧ RestUnchanged s t

/-- Both forms of a data-processing instruction, each with its operand 2. -/
def BothForms (mkImm : Fin 16 → Byte → Instr) (mkReg : Fin 32 → ShiftKind → Reg → Instr)
    (p : Instr → Operand2 → Prop) : Prop :=
  (∀ rot imm8, p (mkImm rot imm8) (.imm rot imm8)) ∧
    ∀ shamt kind rm, p (mkReg shamt kind rm) (.shifted rm kind shamt)

/-- A data-processing word with a non-test opcode, Rd = 15 and S = 1 (30_encoding.md R53). -/
def FlagSettingPcWrite (w : Word) : Prop :=
  w.extractLsb' 26 2 = 0b00#2 ∧ w.extractLsb' 23 2 ≠ 0b10#2 ∧ w.getLsbD 20 = true ∧ w.extractLsb' 12 4 = 0b1111#4

/-- The rows of 30_encoding.md R63, by the bits they name. Class 00x with bits 24:23 = 10 are the test-only
opcodes; opcodes 1101 and 1111 are MOV and MVN. -/
def OutsideSubset (w : Word) : Prop :=
  (w.extractLsb' 26 2 = 0b00#2 ∧ w.extractLsb' 23 2 = 0b10#2 ∧ w.getLsbD 20 = false) ∨
  (w.extractLsb' 25 3 = 0b000#3 ∧ w.getLsbD 4 = true) ∨
  (w.extractLsb' 25 3 = 0b010#3 ∧ (w.extractLsb' 21 5 ≠ 0b01100#5 ∨ w.extractLsb' 0 12 ≠ 0#12)) ∨
  w.extractLsb' 25 3 = 0b011#3 ∨ w.extractLsb' 25 3 = 0b100#3 ∨ w.extractLsb' 25 3 = 0b110#3 ∨
  w.extractLsb' 25 3 = 0b111#3 ∨ w.extractLsb' 28 4 = 0b1111#4 ∨
  (w.extractLsb' 26 2 = 0b00#2 ∧ w.extractLsb' 23 2 = 0b10#2 ∧ w.extractLsb' 12 4 ≠ 0#4) ∨
  (w.extractLsb' 26 2 = 0b00#2 ∧ (w.extractLsb' 21 4 = 0b1101#4 ∨ w.extractLsb' 21 4 = 0b1111#4) ∧
    w.extractLsb' 16 4 ≠ 0#4) ∨
  FlagSettingPcWrite w

/-- The same outcome, but that the next state's SPSR is v. -/
def SameButSpsr (v : Word) (p q : Result) : Prop :=
  match p with
  | .next t => q = .next { t with spsr := v }
  | .fault e => q = .fault e
  | .refused r => q = .refused r

end Sys2Proof.Claims

open Sys2Proof
open Sys2Proof.Machine
open Sys2Proof.Claims

/-- For every well-formed instruction, of all 36 rows and with every operand value, the decoder applied to its encoded word answers exactly that instruction: no field is dropped or mixed up between the two. It rests on the spec's own choices: the bit layout D5 (92_eei_decisions.md; log entry 15). (spec 30_encoding.md section 2 (formats DP_IMM, DP_REG, BRANCH, LS_WORD), 30_encoding.md section 4 (the decoder)) -/
def Obligations.DecodeOfEncodeIsIdentity : Prop :=
  ∀ i : Instr, i.wf = true → decodeWord (encode i) = .ok i

/-- Whenever the decoder accepts a word, the instruction is well-formed and encodes to that same word: no bit of an accepted word is ignored. It rests on the spec's own choices: the bit layout D5, D10 and D13 (92_eei_decisions.md; log entry 15). (spec 30_encoding.md section 2 (formats), 30_encoding.md section 4 (the decoder), 92_eei_decisions.md D10 and D13 (one word per operation)) -/
def Obligations.EncodeOfDecodeIsIdentity : Prop :=
  ∀ (w : Word) (i : Instr), decodeWord w = .ok i → i.wf = true ∧ encode i = w

/-- A word decodes to an instruction with mnemonic m exactly when its condition is not 1111, it matches a row of the opcode table with mnemonic m, and it is not a data-processing word with a non-test opcode, Rd = 15 and S = 1. It rests on the spec's own choices: the bit layout D5, D1, D3, D8, D10, D11 and D13 (92_eei_decisions.md; log entry 15). (spec 30_encoding.md section 4 (the decoder), opcode_table.json (masks, patterns and constraints of the 36 rows)) -/
def Obligations.DecoderAcceptsExactlyTheTable : Prop :=
  ∀ (w : Word) (m : String),
    (∃ i, decodeWord w = .ok i ∧ i.mnemonic = m) ↔
      w.extractLsb' 28 4 ≠ 0b1111#4 ∧ (∃ r ∈ opcodeTable, r.matches w = true ∧ r.mnemonic = m) ∧
        ¬ FlagSettingPcWrite w

/-- Two rows of the opcode table that match one word are the same row. A fetched ARM-mode word that passes its condition and matches no row raises UnsupportedInstruction with the PC and the word. It rests on the spec's own choices: the bit layout D5 and its derivation that the rows do not overlap (92_eei_decisions.md; log entry 15). (spec 30_encoding.md section 4 (the table and the decoder), 60_exceptions.md section 1) -/
def Obligations.TableRowsAreDisjointAndUnmatchedWordsFault : Prop :=
  (∀ (w : Word) (p q : OpcodeRow), p ∈ opcodeTable → q ∈ opcodeTable → p.matches w = true → q.matches w = true →
      p = q) ∧
    ∀ (s : State) (w : Word), FetchesArm s w → s.evaluates w = .pass → (∀ r ∈ opcodeTable, r.matches w = false) →
      step s = .fault (.unsupportedInstruction s.pc w)

/-- A fetched ARM-mode word whose condition does not fail and which lies in one of the refused spaces (test opcode with S = 0; class 000 with bit 4 = 1; class 010 outside the one form; classes 011, 100, 110, 111; condition 1111; non-zero should-be-zero fields; non-test data processing with Rd = 15 and S = 1) raises UnsupportedInstruction with the PC and the word. It rests on the spec's own choices: the bit layout D5, D1, D3, D8, D10, D11 and D13 (92_eei_decisions.md; log entry 15). (spec 30_encoding.md section 4 (encodings outside the subset), 92_eei_decisions.md D1, D3, D8, D10, D11, D13) -/
def Obligations.EncodingsOutsideTheSubsetFault : Prop :=
  ∀ (s : State) (w : Word), FetchesArm s w → OutsideSubset w → s.evaluates w ≠ .fail →
    step s = .fault (.unsupportedInstruction s.pc w)

/-- Ten words written bit by bit, at least one of each format and one of each shift type, decode to the instructions they stand for. Nine are words of the spec examples; the ASR word has no example there and is written from the DP_REG format and the shift type table of 30_encoding.md. It rests on the spec's own choices: the bit layout D5 (92_eei_decisions.md; log entry 15). (spec 30_encoding.md section 2 (formats, shift types), 42_data_processing.md section 4 (examples), 43_branch.md section 2 (examples), 44_load_store.md section 2 (examples)) -/
def Obligations.WordsWrittenFromTheSpecDecode : Prop :=
  decodeWord 0b11100010010100000001000000000101#32 = .ok (.subImm .al true 0 1 0 5#8) ∧
    decodeWord 0b11100011000100000000000100000010#32 = .ok (.tstImm .al 0 1 2#8) ∧
    decodeWord 0b11100001100000010011010000000010#32 = .ok (.orrReg .al false 1 3 8 .lsl 2) ∧
    decodeWord 0b11100001101100000000000001100001#32 = .ok (.movReg .al true 0 0 .ror 1) ∧
    decodeWord 0b11100000000100000010001000100001#32 = .ok (.andReg .al true 0 2 4 .lsr 1) ∧
    decodeWord 0b11100001101100000010111111000001#32 = .ok (.movReg .al true 2 31 .asr 1) ∧
    decodeWord 0b00001011000000000000000000000100#32 = .ok (.bl .eq 4#24) ∧
    decodeWord 0b11101010111111111111111111111110#32 = .ok (.b .al 0xFFFFFE#24) ∧
    decodeWord 0b11100101100100010000000000000000#32 = .ok (.ldr .al 1 0) ∧
    decodeWord 0b11100101100000001111000000000000#32 = .ok (.str .al 0 15)

/-- In ARM mode, at an aligned PC inside memory whose word decodes to i, the step is exec of i in the state whose PC is 4 further and which is otherwise unchanged. (spec 45_execution_loop.md section 1 (one cycle)) -/
def Obligations.StepRunsTheDecodedInstruction : Prop :=
  ∀ (s : State) (i : Instr), s.mode = .arm → s.pc.toNat % 4 = 0 → s.pc.toNat + 3 < s.memSize →
    decodeWord (s.mem.readWord s.pc.toNat) = .ok i →
    step s = exec i s.advance ∧ s.advance.pc = s.pc + 4#32 ∧ (∀ r : Reg, r ≠ 15 → s.advance.reg r = s.reg r) ∧
      s.advance.cpsr = s.cpsr ∧ s.advance.spsr = s.spsr ∧ s.advance.mem = s.mem ∧ s.advance.memSize = s.memSize

/-- With W = 4 in ARM mode and 2 in reduced mode: a PC that is not a multiple of W raises UnalignedFetch; an aligned PC with pc + W - 1 >= MEM_SIZE raises InvalidAddress; otherwise the fetch reads the W bytes little-endian and x[15] becomes pc + W modulo 2^32. A cycle that faults leaves the state, the PC included, as it was. It rests on the spec's own choices: D15, D6 and D17 (92_eei_decisions.md; log entry 15). (spec 45_execution_loop.md section 1 (the fetch), 92_eei_decisions.md D15 (order of the checks), D6 (byte order), D17 (wrap)) -/
def Obligations.FetchChecksAlignmentThenBoundsThenReads : Prop :=
  ∀ s : State,
    (s.pc.toNat % fetchWidth s.mode ≠ 0 → step s = .fault (.unalignedFetch s.pc s.pc)) ∧
    (s.pc.toNat % fetchWidth s.mode = 0 → s.memSize ≤ s.pc.toNat + fetchWidth s.mode - 1 →
      step s = .fault (.invalidAddress s.pc s.pc)) ∧
    (s.pc.toNat % fetchWidth s.mode = 0 → s.pc.toNat + fetchWidth s.mode - 1 < s.memSize →
      (∃ w, s.fetch = .ok w ∧ w.toNat = littleEndian s.mem s.pc.toNat (fetchWidth s.mode) ∧ step s = cycleOn s w) ∧
      s.advance.pc.toNat = (s.pc.toNat + fetchWidth s.mode) % 2 ^ 32) ∧
    ∀ e, step s = .fault e → (stepBatch 1#32 s).state = s

/-- In reduced mode, at a PC that is a multiple of 2 with both bytes inside memory, the step raises UnsupportedInstruction with the PC and the zero-extended little-endian halfword, whatever the halfword is. It rests on the spec's own choices: D4 (92_eei_decisions.md; log entry 15). (spec 30_encoding.md section 4 (reduced mode), 92_eei_decisions.md D4) -/
def Obligations.ReducedModeFetchesAndFaults : Prop :=
  ∀ s : State, s.mode = .reduced → s.pc.toNat % 2 = 0 → s.pc.toNat + 1 < s.memSize →
    step s = .fault (.unsupportedInstruction s.pc (BitVec.ofNat 32 (littleEndian s.mem s.pc.toNat 2)))

/-- The evaluator answers reserved for code 1111 whatever the flags, and an ARM-mode cycle that fetches a word with bits 31:28 = 1111 raises UnsupportedInstruction with the PC and the word, whatever the other 28 bits hold. It rests on the spec's own choices: D1 (92_eei_decisions.md; log entry 15). (spec 40_condition.md (code 1111), 30_encoding.md section 4, 92_eei_decisions.md D1) -/
def Obligations.ReservedConditionFaults : Prop :=
  (∀ n z c v : Bool, evaluate 0b1111#4 n z c v = .reserved) ∧
    ∀ (s : State) (low : BitVec 28), FetchesArm s (0b1111#4 ++ low) →
      step s = .fault (.unsupportedInstruction s.pc (0b1111#4 ++ low))

/-- In ARM mode, when the fetched word has a condition that fails, the step answers a next state whose x[15] is pc + 4 and whose other registers, CPSR, SPSR, memory and memory size are those before; this holds for every word, decodable or not, and the cycle counts as one of a batch. It rests on the spec's own choices: D20 (for a word that does not decode) (92_eei_decisions.md; log entry 15). (spec 40_condition.md (a failed condition), 45_execution_loop.md section 1 (the condition comes before decoding), 92_eei_decisions.md D20) -/
def Obligations.FailedConditionOnlyAdvancesThePc : Prop :=
  ∀ (s : State) (w : Word), FetchesArm s w → s.evaluates w = .fail →
    ∃ t, step s = .next t ∧ t.pc = s.pc + 4#32 ∧ (∀ r : Reg, r ≠ 15 → t.reg r = s.reg r) ∧ t.cpsr = s.cpsr ∧
      RestUnchanged s t ∧ stepBatch 1#32 s = ⟨t, .completed⟩

/-- For each of the 36 instructions, exec in a state where its condition fails answers that same state: no branch is taken, no load or store is made, no flag is written. It rests on the spec's own choices: D20 (92_eei_decisions.md; log entry 15). (spec 40_condition.md (a failed condition), 45_execution_loop.md section 1) -/
def Obligations.ExecWithFailedConditionChangesNothing : Prop :=
  ∀ (i : Instr) (s : State), s.passes i.cond = false → exec i s = .next s

/-- For every value of N, Z, C and V, the evaluator answers pass exactly when the relation of the code table holds, fail otherwise, and reserved for 1111. In every state N, Z, C and V are CPSR bits 31, 30, 29 and 28; the evaluation of a word is that table at its bits 31:28 and these four bits; and an instruction with one of the 15 conditions passes exactly when the relation of that condition holds of these bits. It rests on the spec's own choices: D5, D1 and D18 (92_eei_decisions.md; log entry 15). (spec 40_condition.md (the relation table, the flags read), 10_state.md section 3 (the flags), 92_eei_decisions.md D5 (the code numbers), D1, D18 (bit places)) -/
def Obligations.EvaluatorMatchesTheRelationTable : Prop :=
  (∀ n z c v : Bool,
    evaluate 0b0000#4 n z c v = passIf (z = true) ∧ evaluate 0b0001#4 n z c v = passIf (z = false) ∧
    evaluate 0b0010#4 n z c v = passIf (c = true) ∧ evaluate 0b0011#4 n z c v = passIf (c = false) ∧
    evaluate 0b0100#4 n z c v = passIf (n = true) ∧ evaluate 0b0101#4 n z c v = passIf (n = false) ∧
    evaluate 0b0110#4 n z c v = passIf (v = true) ∧ evaluate 0b0111#4 n z c v = passIf (v = false) ∧
    evaluate 0b1000#4 n z c v = passIf (c = true ∧ z = false) ∧
    evaluate 0b1001#4 n z c v = passIf (c = false ∨ z = true) ∧
    evaluate 0b1010#4 n z c v = passIf (n = v) ∧ evaluate 0b1011#4 n z c v = passIf (n ≠ v) ∧
    evaluate 0b1100#4 n z c v = passIf (z = false ∧ n = v) ∧ evaluate 0b1101#4 n z c v = passIf (z = true ∨ n ≠ v) ∧
    evaluate 0b1110#4 n z c v = .pass ∧ evaluate 0b1111#4 n z c v = .reserved) ∧
  ∀ (s : State) (n z c v : Bool), s.cpsr.getLsbD 31 = n → s.cpsr.getLsbD 30 = z → s.cpsr.getLsbD 29 = c →
    s.cpsr.getLsbD 28 = v →
    s.flagN = n ∧ s.flagZ = z ∧ s.flagC = c ∧ s.flagV = v ∧
    (∀ w : Word, s.evaluates w = evaluate (w.extractLsb' 28 4) n z c v) ∧
    (s.passes .eq = true ↔ z = true) ∧ (s.passes .ne = true ↔ z = false) ∧
    (s.passes .cs = true ↔ c = true) ∧ (s.passes .cc = true ↔ c = false) ∧
    (s.passes .mi = true ↔ n = true) ∧ (s.passes .pl = true ↔ n = false) ∧
    (s.passes .vs = true ↔ v = true) ∧ (s.passes .vc = true ↔ v = false) ∧
    (s.passes .hi = true ↔ c = true ∧ z = false) ∧ (s.passes .ls = true ↔ c = false ∨ z = true) ∧
    (s.passes .ge = true ↔ n = v) ∧ (s.passes .lt = true ↔ n ≠ v) ∧
    (s.passes .gt = true ↔ z = false ∧ n = v) ∧ (s.passes .le = true ↔ z = true ∨ n ≠ v) ∧
    s.passes .al = true

/-- For every state, the step is a next state, or a fault whose batch of one cycle returns the state unchanged with the fault record; no word is refused. (spec R10) -/
def Obligations.StepNeverRefuses : Prop :=
  ∀ s : State, (∃ t, step s = .next t) ∨ ∃ e, step s = .fault e ∧ stepBatch 1#32 s = ⟨s, .faulted e⟩

/-- The step answers a next state exactly when the mode is ARM, the PC is aligned and its word inside memory, and the condition fails, or it passes and the word decodes to an instruction whose data address, if it is LDR or STR, is word-aligned and inside memory. It rests on the spec's own choices: D15, D7, D20 and the bit layout D5 (92_eei_decisions.md; log entry 15). (spec 60_exceptions.md section 2 (priority of the checks), 45_execution_loop.md section 1) -/
def Obligations.StepRetiresExactlyWhenEveryCheckPasses : Prop :=
  ∀ s : State, (∃ t, step s = .next t) ↔
    s.mode = .arm ∧ s.pc.toNat % 4 = 0 ∧ s.pc.toNat + 3 < s.memSize ∧
      (s.evaluates (s.mem.readWord s.pc.toNat) = .fail ∨
        s.evaluates (s.mem.readWord s.pc.toNat) = .pass ∧
          ∃ i, decodeWord (s.mem.readWord s.pc.toNat) = .ok i ∧
            ∀ (c : Cond) (rn rd : Reg), i = .ldr c rn rd ∨ i = .str c rn rd → WordInMemory s.memSize (s.advance.reg rn))

/-- For every operand, condition and state where the condition passes (and Rd = 15 only without S), AND with an immediate or a shifted-register operand 2 retires: Rd gets Rn AND op2; if S, N and Z come from the result, C takes the shifter carry and V is unchanged; without S the CPSR is unchanged; every register but Rd keeps its value (the PC too, unless Rd = 15, which jumps); the other CPSR bits, the SPSR, the memory size and every byte of memory are unchanged. It rests on the spec's own choices: D3, D11 and D26 (92_eei_decisions.md; log entry 15). (spec 42_data_processing.md section 4 (AND), sections 1 to 3, 41_shifter.md section 2 (operand 2)) -/
def Obligations.AndWritesTheConjunction : Prop :=
  ∀ (c : Cond) (f : Bool) (rn rd : Reg) (s : State), s.passes c = true → flagFormOk f rd = true →
    BothForms (.andImm c f rn rd) (.andReg c f rn rd) fun i o =>
      Writes i s rd f (s.reg rn &&& s.op2Value o) (s.op2Carry o)
        (s.flagV)

/-- For every operand, condition and state where the condition passes (and Rd = 15 only without S), EOR with an immediate or a shifted-register operand 2 retires: Rd gets Rn XOR op2; if S, N and Z come from the result, C takes the shifter carry and V is unchanged; without S the CPSR is unchanged; every register but Rd keeps its value (the PC too, unless Rd = 15, which jumps); the other CPSR bits, the SPSR, the memory size and every byte of memory are unchanged. It rests on the spec's own choices: D3, D11 and D26 (92_eei_decisions.md; log entry 15). (spec 42_data_processing.md section 4 (EOR), sections 1 to 3, 41_shifter.md section 2 (operand 2)) -/
def Obligations.EorWritesTheExclusiveOr : Prop :=
  ∀ (c : Cond) (f : Bool) (rn rd : Reg) (s : State), s.passes c = true → flagFormOk f rd = true →
    BothForms (.eorImm c f rn rd) (.eorReg c f rn rd) fun i o =>
      Writes i s rd f (s.reg rn ^^^ s.op2Value o) (s.op2Carry o)
        (s.flagV)

/-- For every operand, condition and state where the condition passes (and Rd = 15 only without S), SUB with an immediate or a shifted-register operand 2 retires: Rd gets Rn - op2 modulo 2^32; if S, N and Z come from the result, C is 1 exactly when there is no borrow (Rn >= op2 unsigned) and V exactly when the exact signed difference lies outside 32 bits; without S the CPSR is unchanged; every register but Rd keeps its value (the PC too, unless Rd = 15, which jumps); the other CPSR bits, the SPSR, the memory size and every byte of memory are unchanged. It rests on the spec's own choices: D3, D11, D14 and D26 (92_eei_decisions.md; log entry 15). (spec 42_data_processing.md section 4 (SUB), sections 1 to 3, 41_shifter.md section 2 (operand 2)) -/
def Obligations.SubWritesTheDifference : Prop :=
  ∀ (c : Cond) (f : Bool) (rn rd : Reg) (s : State), s.passes c = true → flagFormOk f rd = true →
    BothForms (.subImm c f rn rd) (.subReg c f rn rd) fun i o =>
      Writes i s rd f (s.reg rn - s.op2Value o) (decide ((s.op2Value o).toNat ≤ (s.reg rn).toNat))
        (outside ((s.reg rn).toInt - (s.op2Value o).toInt))

/-- For every operand, condition and state where the condition passes (and Rd = 15 only without S), RSB with an immediate or a shifted-register operand 2 retires: Rd gets op2 - Rn modulo 2^32; if S, N and Z come from the result, C is 1 exactly when op2 >= Rn unsigned and V exactly when the exact signed difference lies outside 32 bits; without S the CPSR is unchanged; every register but Rd keeps its value (the PC too, unless Rd = 15, which jumps); the other CPSR bits, the SPSR, the memory size and every byte of memory are unchanged. It rests on the spec's own choices: D3, D11, D14 and D26 (92_eei_decisions.md; log entry 15). (spec 42_data_processing.md section 4 (RSB), sections 1 to 3, 41_shifter.md section 2 (operand 2)) -/
def Obligations.RsbWritesTheReverseDifference : Prop :=
  ∀ (c : Cond) (f : Bool) (rn rd : Reg) (s : State), s.passes c = true → flagFormOk f rd = true →
    BothForms (.rsbImm c f rn rd) (.rsbReg c f rn rd) fun i o =>
      Writes i s rd f (s.op2Value o - s.reg rn) (decide ((s.reg rn).toNat ≤ (s.op2Value o).toNat))
        (outside ((s.op2Value o).toInt - (s.reg rn).toInt))

/-- For every operand, condition and state where the condition passes (and Rd = 15 only without S), ADD with an immediate or a shifted-register operand 2 retires: Rd gets Rn + op2 modulo 2^32; if S, N and Z come from the result, C is 1 exactly when the unsigned sum reaches 2^32 and V exactly when the exact signed sum lies outside 32 bits; without S the CPSR is unchanged; every register but Rd keeps its value (the PC too, unless Rd = 15, which jumps); the other CPSR bits, the SPSR, the memory size and every byte of memory are unchanged. It rests on the spec's own choices: D3, D11, D14 and D26 (92_eei_decisions.md; log entry 15). (spec 42_data_processing.md section 4 (ADD), sections 1 to 3, 41_shifter.md section 2 (operand 2)) -/
def Obligations.AddWritesTheSum : Prop :=
  ∀ (c : Cond) (f : Bool) (rn rd : Reg) (s : State), s.passes c = true → flagFormOk f rd = true →
    BothForms (.addImm c f rn rd) (.addReg c f rn rd) fun i o =>
      Writes i s rd f (s.reg rn + s.op2Value o) (decide (2 ^ 32 ≤ (s.reg rn).toNat + (s.op2Value o).toNat))
        (outside ((s.reg rn).toInt + (s.op2Value o).toInt))

/-- For every operand, condition and state where the condition passes (and Rd = 15 only without S), ADC with an immediate or a shifted-register operand 2 retires: Rd gets Rn + op2 + C modulo 2^32; if S, N and Z come from the result, C is 1 exactly when the unsigned sum with the old C reaches 2^32 and V exactly when the exact signed sum lies outside 32 bits; without S the CPSR is unchanged; every register but Rd keeps its value (the PC too, unless Rd = 15, which jumps); the other CPSR bits, the SPSR, the memory size and every byte of memory are unchanged. It rests on the spec's own choices: D3, D11, D14 and D26 (92_eei_decisions.md; log entry 15). (spec 42_data_processing.md section 4 (ADC), sections 1 to 3, 41_shifter.md section 2 (operand 2)) -/
def Obligations.AdcWritesTheSumWithCarry : Prop :=
  ∀ (c : Cond) (f : Bool) (rn rd : Reg) (s : State), s.passes c = true → flagFormOk f rd = true →
    BothForms (.adcImm c f rn rd) (.adcReg c f rn rd) fun i o =>
      Writes i s rd f (s.reg rn + s.op2Value o + (if s.flagC then 1#32 else 0#32)) (decide (2 ^ 32 ≤ (s.reg rn).toNat + (s.op2Value o).toNat + s.flagC.toNat))
        (outside ((s.reg rn).toInt + (s.op2Value o).toInt + (s.flagC.toNat : Int)))

/-- For every operand, condition and state where the condition passes (and Rd = 15 only without S), SBC with an immediate or a shifted-register operand 2 retires: Rd gets Rn - op2 - (1 - C) modulo 2^32; if S, N and Z come from the result, C is 1 exactly when the exact unsigned difference is not negative and V exactly when the exact signed difference lies outside 32 bits; without S the CPSR is unchanged; every register but Rd keeps its value (the PC too, unless Rd = 15, which jumps); the other CPSR bits, the SPSR, the memory size and every byte of memory are unchanged. It rests on the spec's own choices: D3, D11, D14 and D26 (92_eei_decisions.md; log entry 15). (spec 42_data_processing.md section 4 (SBC), sections 1 to 3, 41_shifter.md section 2 (operand 2)) -/
def Obligations.SbcWritesTheDifferenceWithBorrow : Prop :=
  ∀ (c : Cond) (f : Bool) (rn rd : Reg) (s : State), s.passes c = true → flagFormOk f rd = true →
    BothForms (.sbcImm c f rn rd) (.sbcReg c f rn rd) fun i o =>
      Writes i s rd f (s.reg rn - s.op2Value o - (if s.flagC then 0#32 else 1#32)) (decide (0 ≤ ((s.reg rn).toNat : Int) - (s.op2Value o).toNat - (1 - (s.flagC.toNat : Int))))
        (outside ((s.reg rn).toInt - (s.op2Value o).toInt - (1 - (s.flagC.toNat : Int))))

/-- For every operand, condition and state where the condition passes (and Rd = 15 only without S), RSC with an immediate or a shifted-register operand 2 retires: Rd gets op2 - Rn - (1 - C) modulo 2^32; if S, N and Z come from the result, C is 1 exactly when the exact unsigned difference is not negative and V exactly when the exact signed difference lies outside 32 bits; without S the CPSR is unchanged; every register but Rd keeps its value (the PC too, unless Rd = 15, which jumps); the other CPSR bits, the SPSR, the memory size and every byte of memory are unchanged. It rests on the spec's own choices: D3, D11, D14 and D26 (92_eei_decisions.md; log entry 15). (spec 42_data_processing.md section 4 (RSC), sections 1 to 3, 41_shifter.md section 2 (operand 2)) -/
def Obligations.RscWritesTheReverseDifferenceWithBorrow : Prop :=
  ∀ (c : Cond) (f : Bool) (rn rd : Reg) (s : State), s.passes c = true → flagFormOk f rd = true →
    BothForms (.rscImm c f rn rd) (.rscReg c f rn rd) fun i o =>
      Writes i s rd f (s.op2Value o - s.reg rn - (if s.flagC then 0#32 else 1#32)) (decide (0 ≤ ((s.op2Value o).toNat : Int) - (s.reg rn).toNat - (1 - (s.flagC.toNat : Int))))
        (outside ((s.op2Value o).toInt - (s.reg rn).toInt - (1 - (s.flagC.toNat : Int))))

/-- For every operand, condition and state where the condition passes, TST with an immediate or a shifted-register operand 2 retires: no register is written, the result being Rn AND op2; N, Z come from the result, C takes the shifter carry and V is unchanged; every register keeps its value; the other CPSR bits, the SPSR, the memory size and every byte of memory are unchanged. It rests on the spec's own choices: D3 and D26 (92_eei_decisions.md; log entry 15). (spec 42_data_processing.md section 4 (TST), sections 1 to 3, 41_shifter.md section 2 (operand 2)) -/
def Obligations.TstSetsFlagsOfTheConjunction : Prop :=
  ∀ (c : Cond) (rn : Reg) (s : State), s.passes c = true →
    BothForms (.tstImm c rn) (.tstReg c rn) fun i o =>
      SetsFlags i s (s.reg rn &&& s.op2Value o) (s.op2Carry o)
        (s.flagV)

/-- For every operand, condition and state where the condition passes, TEQ with an immediate or a shifted-register operand 2 retires: no register is written, the result being Rn XOR op2; N, Z come from the result, C takes the shifter carry and V is unchanged; every register keeps its value; the other CPSR bits, the SPSR, the memory size and every byte of memory are unchanged. It rests on the spec's own choices: D3 and D26 (92_eei_decisions.md; log entry 15). (spec 42_data_processing.md section 4 (TEQ), sections 1 to 3, 41_shifter.md section 2 (operand 2)) -/
def Obligations.TeqSetsFlagsOfTheExclusiveOr : Prop :=
  ∀ (c : Cond) (rn : Reg) (s : State), s.passes c = true →
    BothForms (.teqImm c rn) (.teqReg c rn) fun i o =>
      SetsFlags i s (s.reg rn ^^^ s.op2Value o) (s.op2Carry o)
        (s.flagV)

/-- For every operand, condition and state where the condition passes, CMP with an immediate or a shifted-register operand 2 retires: no register is written, the result being Rn - op2; N, Z come from the result, C is 1 exactly when Rn >= op2 unsigned and V exactly when the exact signed difference lies outside 32 bits; every register keeps its value; the other CPSR bits, the SPSR, the memory size and every byte of memory are unchanged. It rests on the spec's own choices: D3, D14 and D26 (92_eei_decisions.md; log entry 15). (spec 42_data_processing.md section 4 (CMP), sections 1 to 3, 41_shifter.md section 2 (operand 2)) -/
def Obligations.CmpSetsFlagsOfTheDifference : Prop :=
  ∀ (c : Cond) (rn : Reg) (s : State), s.passes c = true →
    BothForms (.cmpImm c rn) (.cmpReg c rn) fun i o =>
      SetsFlags i s (s.reg rn - s.op2Value o) (decide ((s.op2Value o).toNat ≤ (s.reg rn).toNat))
        (outside ((s.reg rn).toInt - (s.op2Value o).toInt))

/-- For every operand, condition and state where the condition passes, CMN with an immediate or a shifted-register operand 2 retires: no register is written, the result being Rn + op2; N, Z come from the result, C is 1 exactly when the unsigned sum reaches 2^32 and V exactly when the exact signed sum lies outside 32 bits; every register keeps its value; the other CPSR bits, the SPSR, the memory size and every byte of memory are unchanged. It rests on the spec's own choices: D3, D14 and D26 (92_eei_decisions.md; log entry 15). (spec 42_data_processing.md section 4 (CMN), sections 1 to 3, 41_shifter.md section 2 (operand 2)) -/
def Obligations.CmnSetsFlagsOfTheSum : Prop :=
  ∀ (c : Cond) (rn : Reg) (s : State), s.passes c = true →
    BothForms (.cmnImm c rn) (.cmnReg c rn) fun i o =>
      SetsFlags i s (s.reg rn + s.op2Value o) (decide (2 ^ 32 ≤ (s.reg rn).toNat + (s.op2Value o).toNat))
        (outside ((s.reg rn).toInt + (s.op2Value o).toInt))

/-- For every operand, condition and state where the condition passes (and Rd = 15 only without S), ORR with an immediate or a shifted-register operand 2 retires: Rd gets Rn OR op2; if S, N and Z come from the result, C takes the shifter carry and V is unchanged; without S the CPSR is unchanged; every register but Rd keeps its value (the PC too, unless Rd = 15, which jumps); the other CPSR bits, the SPSR, the memory size and every byte of memory are unchanged. It rests on the spec's own choices: D3, D11 and D26 (92_eei_decisions.md; log entry 15). (spec 42_data_processing.md section 4 (ORR), sections 1 to 3, 41_shifter.md section 2 (operand 2)) -/
def Obligations.OrrWritesTheDisjunction : Prop :=
  ∀ (c : Cond) (f : Bool) (rn rd : Reg) (s : State), s.passes c = true → flagFormOk f rd = true →
    BothForms (.orrImm c f rn rd) (.orrReg c f rn rd) fun i o =>
      Writes i s rd f (s.reg rn ||| s.op2Value o) (s.op2Carry o)
        (s.flagV)

/-- For every operand, condition and state where the condition passes (and Rd = 15 only without S), MOV with an immediate or a shifted-register operand 2 retires: Rd gets op2; if S, N and Z come from the result, C takes the shifter carry and V is unchanged; without S the CPSR is unchanged; every register but Rd keeps its value (the PC too, unless Rd = 15, which jumps); the other CPSR bits, the SPSR, the memory size and every byte of memory are unchanged. It rests on the spec's own choices: D3, D11 and D26 (92_eei_decisions.md; log entry 15). (spec 42_data_processing.md section 4 (MOV), sections 1 to 3, 41_shifter.md section 2 (operand 2)) -/
def Obligations.MovWritesOperandTwo : Prop :=
  ∀ (c : Cond) (f : Bool) (rd : Reg) (s : State), s.passes c = true → flagFormOk f rd = true →
    BothForms (.movImm c f rd) (.movReg c f rd) fun i o =>
      Writes i s rd f (s.op2Value o) (s.op2Carry o)
        (s.flagV)

/-- For every operand, condition and state where the condition passes (and Rd = 15 only without S), BIC with an immediate or a shifted-register operand 2 retires: Rd gets Rn AND NOT op2; if S, N and Z come from the result, C takes the shifter carry and V is unchanged; without S the CPSR is unchanged; every register but Rd keeps its value (the PC too, unless Rd = 15, which jumps); the other CPSR bits, the SPSR, the memory size and every byte of memory are unchanged. It rests on the spec's own choices: D3, D11 and D26 (92_eei_decisions.md; log entry 15). (spec 42_data_processing.md section 4 (BIC), sections 1 to 3, 41_shifter.md section 2 (operand 2)) -/
def Obligations.BicWritesTheMaskedValue : Prop :=
  ∀ (c : Cond) (f : Bool) (rn rd : Reg) (s : State), s.passes c = true → flagFormOk f rd = true →
    BothForms (.bicImm c f rn rd) (.bicReg c f rn rd) fun i o =>
      Writes i s rd f (s.reg rn &&& ~~~(s.op2Value o)) (s.op2Carry o)
        (s.flagV)

/-- For every operand, condition and state where the condition passes (and Rd = 15 only without S), MVN with an immediate or a shifted-register operand 2 retires: Rd gets NOT op2; if S, N and Z come from the result, C takes the shifter carry and V is unchanged; without S the CPSR is unchanged; every register but Rd keeps its value (the PC too, unless Rd = 15, which jumps); the other CPSR bits, the SPSR, the memory size and every byte of memory are unchanged. It rests on the spec's own choices: D3, D11 and D26 (92_eei_decisions.md; log entry 15). (spec 42_data_processing.md section 4 (MVN), sections 1 to 3, 41_shifter.md section 2 (operand 2)) -/
def Obligations.MvnWritesTheComplement : Prop :=
  ∀ (c : Cond) (f : Bool) (rd : Reg) (s : State), s.passes c = true → flagFormOk f rd = true →
    BothForms (.mvnImm c f rd) (.mvnReg c f rd) fun i o =>
      Writes i s rd f (~~~(s.op2Value o)) (s.op2Carry o)
        (s.flagV)

/-- When its condition passes, B at address addr (x[15] = addr + 4 during execute) retires with x[15] = addr + 4 + 4 * (signed imm24) modulo 2^32; no other register, no flag, no CPSR bit, not the SPSR and no byte of memory changes; a target is a multiple of 4 when addr is; it is not checked, and one outside memory faults at the next fetch. It rests on the spec's own choices: D2 and D17 (92_eei_decisions.md; log entry 15). (spec 43_branch.md section 1 (offset and target), 92_eei_decisions.md D2 (bias 4), D17 (wrap)) -/
def Obligations.BranchJumpsRelativeToTheNextInstruction : Prop :=
  ∀ (c : Cond) (imm24 : BitVec 24) (addr : Word) (s : State), s.passes c = true → s.pc = addr + 4#32 →
    ∃ t, exec (.b c imm24) s = .next t ∧
      (t.pc.toNat : Int) = ((addr.toNat : Int) + 4 + 4 * imm24.toInt) % 2 ^ 32 ∧
      (addr.toNat % 4 = 0 → t.pc.toNat % 4 = 0) ∧
      (∀ r : Reg, r ≠ 15 → t.reg r = s.reg r) ∧ t.cpsr = s.cpsr ∧ RestUnchanged s t ∧
      (t.mode = .arm → t.pc.toNat % 4 = 0 → t.memSize ≤ t.pc.toNat + 3 → step t = .fault (.invalidAddress t.pc t.pc))

/-- When its condition passes, BL at address addr retires with x[14] = addr + 4 and x[15] the same target as B; nothing else changes. When the condition of B or BL fails, the state is unchanged. It rests on the spec's own choices: D2 and D17 (92_eei_decisions.md; log entry 15). (spec 43_branch.md section 1 (the link write), 92_eei_decisions.md D2 (bias 4), D17 (wrap)) -/
def Obligations.BranchWithLinkSavesTheReturnAddress : Prop :=
  ∀ (c : Cond) (imm24 : BitVec 24) (addr : Word) (s : State), s.pc = addr + 4#32 →
    (s.passes c = true →
      ∃ t, exec (.bl c imm24) s = .next t ∧ t.reg 14 = addr + 4#32 ∧
        (t.pc.toNat : Int) = ((addr.toNat : Int) + 4 + 4 * imm24.toInt) % 2 ^ 32 ∧
        (∀ r : Reg, r ≠ 14 → r ≠ 15 → t.reg r = s.reg r) ∧ t.cpsr = s.cpsr ∧ RestUnchanged s t) ∧
    (s.passes c = false → exec (.bl c imm24) s = .next s ∧ exec (.b c imm24) s = .next s)

/-- When its condition passes and x[Rn] is word-aligned with all four bytes inside memory, LDR retires: Rd (the PC when Rd = 15) gets the little-endian word of those bytes; every other register, the CPSR, the SPSR, the memory size and every byte of memory are unchanged. It rests on the spec's own choices: D12 (92_eei_decisions.md; log entry 15). (spec 44_load_store.md section 2 (LDR), 20_memory.md section 1 (little-endian reads)) -/
def Obligations.LdrLoadsTheWord : Prop :=
  ∀ (c : Cond) (rn rd : Reg) (s : State), s.passes c = true → WordInMemory s.memSize (s.reg rn) →
    ∃ t, exec (.ldr c rn rd) s = .next t ∧ (t.reg rd).toNat = littleEndian s.mem (s.reg rn).toNat 4 ∧
      (∀ r : Reg, r ≠ rd → t.reg r = s.reg r) ∧ t.cpsr = s.cpsr ∧ RestUnchanged s t

/-- When its condition passes, memory is canonical and x[Rn] is word-aligned with all four bytes inside memory, STR retires: byte k of Rd is read back at x[Rn] + k for k = 0 to 3; every byte outside those four, every register, the CPSR, the SPSR and the memory size are unchanged. It rests on the spec's own choices: D12 (92_eei_decisions.md; log entry 15). (spec 44_load_store.md section 2 (STR), 20_memory.md section 1 (little-endian writes)) -/
def Obligations.StrStoresTheWord : Prop :=
  ∀ (c : Cond) (rn rd : Reg) (s : State), s.passes c = true → s.mem.wf → WordInMemory s.memSize (s.reg rn) →
    ∃ t, exec (.str c rn rd) s = .next t ∧
      (∀ k : Nat, k < 4 → (t.mem.read ((s.reg rn).toNat + k)).toNat = (s.reg rd).toNat / 256 ^ k % 256) ∧
      (∀ a : Nat, a < (s.reg rn).toNat ∨ (s.reg rn).toNat + 4 ≤ a → t.mem.read a = s.mem.read a) ∧
      (∀ r : Reg, t.reg r = s.reg r) ∧ t.cpsr = s.cpsr ∧ t.spsr = s.spsr ∧ t.memSize = s.memSize

/-- When the condition of an LDR or STR passes and x[Rn] is not word-aligned or x[Rn] + 3 >= MEM_SIZE (counted exactly), its cycle raises InvalidAddress with the instruction address and x[Rn]; a batch of one cycle returns the state before it, PC included. It rests on the spec's own choices: D7 (92_eei_decisions.md; log entry 15). (spec 44_load_store.md section 1 (the checks), 92_eei_decisions.md D7) -/
def Obligations.TransferChecksFaultBeforeAnyByte : Prop :=
  ∀ (c : Cond) (rn rd : Reg) (i : Instr) (s : State), i = .ldr c rn rd ∨ i = .str c rn rd →
    s.mode = .arm → s.pc.toNat % 4 = 0 → s.pc.toNat + 3 < s.memSize →
    decodeWord (s.mem.readWord s.pc.toNat) = .ok i → s.passes c = true →
    (s.advance.reg rn).toNat % 4 ≠ 0 ∨ s.memSize ≤ (s.advance.reg rn).toNat + 3 →
    step s = .fault (.invalidAddress s.pc (s.advance.reg rn)) ∧
      stepBatch 1#32 s = ⟨s, .faulted (.invalidAddress s.pc (s.advance.reg rn))⟩

/-- For all operands and carries, the ALU results of AND, TST, EOR, TEQ, ORR, MOV, BIC and MVN are the bitwise ones, the carry out is the shifter carry and the overflow out is the V it was given. It rests on the spec's own choices: the general-knowledge meaning of BIC and MVN (92_eei_decisions.md; log entry 15). (spec 42_data_processing.md section 1 (logical group)) -/
def Obligations.LogicalGroupPassesTheShifterCarry : Prop :=
  ∀ (a b : Word) (cin sc v : Bool),
    alu .and a b cin sc v = ⟨a &&& b, sc, v⟩ ∧ alu .tst a b cin sc v = ⟨a &&& b, sc, v⟩ ∧
    alu .eor a b cin sc v = ⟨a ^^^ b, sc, v⟩ ∧ alu .teq a b cin sc v = ⟨a ^^^ b, sc, v⟩ ∧
    alu .orr a b cin sc v = ⟨a ||| b, sc, v⟩ ∧ alu .mov a b cin sc v = ⟨b, sc, v⟩ ∧
    alu .bic a b cin sc v = ⟨a &&& ~~~b, sc, v⟩ ∧ alu .mvn a b cin sc v = ⟨~~~b, sc, v⟩

/-- For all operands and carry in: result + 2^32 * carry is the exact unsigned sum; overflow is 1 exactly when the exact signed sum lies outside 32 bits, and equivalently exactly when both operands have the same sign and the result has the other. It rests on the spec's own choices: the general-knowledge adder formulation (92_eei_decisions.md; log entry 15). (spec 42_data_processing.md section 1 (the adder)) -/
def Obligations.AdderCarryAndOverflowAreExact : Prop :=
  ∀ (a b : Word) (cin : Bool),
    (addWithCarry a b cin).result.toNat + 2 ^ 32 * (addWithCarry a b cin).carryOut.toNat =
      a.toNat + b.toNat + cin.toNat ∧
    (addWithCarry a b cin).overflowOut = outside (a.toInt + b.toInt + (cin.toNat : Int)) ∧
    (addWithCarry a b cin).overflowOut =
      (a.getLsbD 31 == b.getLsbD 31 && (addWithCarry a b cin).result.getLsbD 31 != a.getLsbD 31)

/-- For all a and b and whatever the carries, SUB(ADD(a, b), b) = a and ADD(SUB(a, b), b) = a on the ALU results. (spec 42_data_processing.md section 1 (integer laws)) -/
def Obligations.SubUndoesAdd : Prop :=
  ∀ (a b : Word) (cin sc v : Bool),
    (alu .sub (alu .add a b cin sc v).result b cin sc v).result = a ∧
    (alu .add (alu .sub a b cin sc v).result b cin sc v).result = a

/-- For amount 0 the result is the value and the carry out is the carry in. For n = 1 to 31 the result is value * 2^n modulo 2^32 and the carry out is bit 32 - n of the value. It rests on the spec's own choices: its derivation of the bit shifted out (92_eei_decisions.md; log entry 15). (spec 41_shifter.md section 1 (LSL)) -/
def Obligations.LslShiftsLeft : Prop :=
  ∀ (value : Word) (n : Fin 32) (cin : Bool),
    (n = 0 → shift value .lsl n cin = ⟨value, cin⟩) ∧
    (n ≠ 0 → (shift value .lsl n cin).result.toNat = value.toNat * 2 ^ n.val % 2 ^ 32 ∧
      (shift value .lsl n cin).carryOut = value.getLsbD (32 - n.val))

/-- For amount 0 the result is 0 and the carry out is bit 31. For n = 1 to 31 the result is the value divided by 2^n and the carry out is bit n - 1. (spec R73) -/
def Obligations.LsrShiftsRight : Prop :=
  ∀ (value : Word) (n : Fin 32) (cin : Bool),
    (n = 0 → shift value .lsr n cin = ⟨0#32, value.getLsbD 31⟩) ∧
    (n ≠ 0 → (shift value .lsr n cin).result.toNat = value.toNat / 2 ^ n.val ∧
      (shift value .lsr n cin).carryOut = value.getLsbD (n.val - 1))

/-- For amount 0 every result bit and the carry out are bit 31 of the value. For n = 1 to 31 the signed result is the signed value divided by 2^n rounded down and the carry out is bit n - 1. (spec R74) -/
def Obligations.AsrShiftsRightWithSign : Prop :=
  ∀ (value : Word) (n : Fin 32) (cin : Bool),
    (n = 0 → (∀ k : Nat, k < 32 → (shift value .asr n cin).result.getLsbD k = value.getLsbD 31) ∧
      (shift value .asr n cin).carryOut = value.getLsbD 31) ∧
    (n ≠ 0 → (shift value .asr n cin).result.toInt = value.toInt / 2 ^ n.val ∧
      (shift value .asr n cin).carryOut = value.getLsbD (n.val - 1))

/-- For amount 0 bit 31 of the result is the carry in, bits 30:0 are bits 31:1 of the value and the carry out is bit 0. For n = 1 to 31 result bit k is value bit (k + n) mod 32 and the carry out is bit n - 1 of the value, which is also bit 31 of the result. (spec R75) -/
def Obligations.RorRotatesAndZeroIsRrx : Prop :=
  ∀ (value : Word) (n : Fin 32) (cin : Bool),
    (n = 0 → (shift value .ror n cin).result.getLsbD 31 = cin ∧
      (∀ k : Nat, k < 31 → (shift value .ror n cin).result.getLsbD k = value.getLsbD (k + 1)) ∧
      (shift value .ror n cin).carryOut = value.getLsbD 0) ∧
    (n ≠ 0 → (∀ k : Nat, k < 32 → (shift value .ror n cin).result.getLsbD k = value.getLsbD ((k + n.val) % 32)) ∧
      (shift value .ror n cin).carryOut = value.getLsbD (n.val - 1) ∧
      (shift value .ror n cin).carryOut = (shift value .ror n cin).result.getLsbD 31)

/-- In every state, bit k of an immediate operand 2 is bit (k + 2 * rot) mod 32 of the zero-extended imm8; its carry is C when rot = 0 and bit 31 of the operand otherwise; with rot = 0 the operand is imm8 itself. It rests on the spec's own choices: D9 (92_eei_decisions.md; log entry 15). (spec 41_shifter.md section 2 (immediate form), 92_eei_decisions.md D9) -/
def Obligations.ImmediateOperandIsRotated : Prop :=
  ∀ (rot : Fin 16) (imm8 : Byte) (s : State),
    (∀ k : Nat, k < 32 →
      (s.op2Value (.imm rot imm8)).getLsbD k = (imm8.setWidth 32).getLsbD ((k + 2 * rot.val) % 32)) ∧
    (rot = 0 → s.op2Value (.imm rot imm8) = imm8.setWidth 32 ∧ s.op2Carry (.imm rot imm8) = s.flagC) ∧
    (rot ≠ 0 → s.op2Carry (.imm rot imm8) = (s.op2Value (.imm rot imm8)).getLsbD 31)

/-- If exec of any instruction answers a next state, then CPSR bits 27:0 are unchanged; the whole CPSR is unchanged unless the instruction is data processing with flag setting; and V is unchanged if it is of the logical group. It rests on the spec's own choices: D3 and D18 (92_eei_decisions.md; log entry 15). (spec 42_data_processing.md section 2 (the flag updater), 44_load_store.md section 2, 43_branch.md section 2, 10_state.md section 3) -/
def Obligations.OnlyFlagSettersWriteTheCpsr : Prop :=
  ∀ (i : Instr) (s t : State), exec i s = .next t →
    (∀ k : Nat, k < 28 → t.cpsr.getLsbD k = s.cpsr.getLsbD k) ∧
    ((∀ d, i.dp? = some d → d.setFlags = false) → t.cpsr = s.cpsr) ∧
    (∀ d, i.dp? = some d → d.op ∈ [DpOp.and, .eor, .tst, .teq, .orr, .mov, .bic, .mvn] → t.flagV = s.flagV)

/-- For each of the eight test-only instructions and every state, exec answers a next state in which every register, CPSR bits 27:0, the SPSR, the memory size and every byte of memory are unchanged; and when the condition passes N and Z are those of the ALU result and C and V are its carry out and overflow out. (spec R84) -/
def Obligations.TestOpcodesOnlySetFlags : Prop :=
  ∀ (i : Instr) (d : DpFields) (s : State), i.dp? = some d → d.op ∈ [DpOp.tst, .teq, .cmp, .cmn] →
    d.setFlags = true ∧ ∃ t, exec i s = .next t ∧ (∀ r : Reg, t.reg r = s.reg r) ∧
      LowCpsrUnchanged s t ∧ RestUnchanged s t ∧
      (s.passes i.cond = true →
        let out := alu d.op (s.reg d.rn) (s.op2Value d.op2) s.flagC (s.op2Carry d.op2) s.flagV
        t.flagN = out.result.getLsbD 31 ∧ t.flagZ = decide (out.result = 0#32) ∧ t.flagC = out.carryOut ∧
          t.flagV = out.overflowOut)

/-- If a step answers a next state and the fetched word does not decode to an STR whose condition passes, the memory is exactly the one before. (spec 20_memory.md section 1 (the accesses that reach memory), 44_load_store.md section 2) -/
def Obligations.OnlyStrChangesMemory : Prop :=
  ∀ s t : State, step s = .next t →
    (∀ (c : Cond) (rn rd : Reg), decodeWord (s.mem.readWord s.pc.toNat) = .ok (.str c rn rd) → s.passes c = false) →
    t.mem = s.mem

/-- If exec of an instruction answers a next state, every register is unchanged except: Rd of a data-processing instruction that is not test-only, Rd of LDR, x[14] and x[15] of BL, x[15] of B. (spec 45_execution_loop.md section 1 (retirement and atomicity), 10_state.md section 1) -/
def Obligations.CycleWritesAtMostOneRegisterBesideThePc : Prop :=
  ∀ (i : Instr) (s t : State), exec i s = .next t → ∀ r : Reg, t.reg r ≠ s.reg r →
    (∃ d, i.dp? = some d ∧ d.op ∉ [DpOp.tst, .teq, .cmp, .cmn] ∧ r = d.rd) ∨ (∃ c rn, i = .ldr c rn r) ∨
      (∃ c imm24, i = .bl c imm24 ∧ (r = 14 ∨ r = 15)) ∨ ∃ c imm24, i = .b c imm24 ∧ r = 15

/-- If a step answers a next state in which the PC is not the old PC + 4, then the fetched word passed its condition and decodes to B, BL, LDR with Rd = 15, or a non-test data-processing instruction with Rd = 15 and S = 0. It rests on the spec's own choices: D11 and D12 (92_eei_decisions.md; log entry 15). (spec 10_state.md section 2 (how each instruction moves the PC)) -/
def Obligations.PcMovesByFourUnlessTheInstructionJumps : Prop :=
  ∀ s t : State, step s = .next t → t.pc ≠ s.pc + 4#32 →
    ∃ i, decodeWord (s.mem.readWord s.pc.toNat) = .ok i ∧ s.passes i.cond = true ∧
      ((∃ c imm24, i = .b c imm24) ∨ (∃ c imm24, i = .bl c imm24) ∨ (∃ c rn, i = .ldr c rn 15) ∨
        ∃ d, i.dp? = some d ∧ d.rd = 15 ∧ d.setFlags = false ∧ d.op ∉ [DpOp.tst, .teq, .cmp, .cmn])

/-- If a step answers a next state, its SPSR, its fetch mode and its memory size are those before. (spec 10_state.md section 3 (SPSR, mode flag), 20_memory.md section 1 (size fixed at construction)) -/
def Obligations.SpsrModeAndMemorySizeNeverChange : Prop :=
  ∀ s t : State, step s = .next t → t.spsr = s.spsr ∧ t.mode = s.mode ∧ t.memSize = s.memSize

/-- For every state and every value put in its SPSR: the step of the changed state is the step of the original with the same value put in the SPSR of the next state, or the same fault. It rests on the spec's own choices: D19 (92_eei_decisions.md; log entry 15). (spec 10_state.md section 3 (no instruction reads or writes the SPSR)) -/
def Obligations.SpsrNeverInfluencesAStep : Prop :=
  ∀ (s : State) (v : Word), SameButSpsr v (step s) (step { s with spsr := v })

/-- Legal: memory in canonical form and inside its extent, the extent from 1 to 2^32, the reserved CPSR bits zero. From every legal state a step that answers a next state answers a legal one. It rests on the spec's own choices: D18 and D23 (92_eei_decisions.md; log entry 15). (spec 20_memory.md section 1, 10_state.md section 3 (reserved bits), 00_scope.md section 3 (parameters)) -/
def Obligations.StepKeepsTheStateLegal : Prop :=
  ∀ s t : State, s.Legal → step s = .next t → t.Legal

/-- State.reset is a legal state, and it is the construction with the memory size, PC, mode and memory contents that the model chose (log entries 1 to 4). (spec 10_state.md section 6 (reset values), 70_reset_and_hazards.md section 1) -/
def Obligations.ResetStateIsLegal : Prop :=
  State.reset.Legal ∧ State.reset = construct [] Config.memSize Config.resetPc Config.initMode

/-- For every buffer, size, initial PC and mode: construct gives x[0] to x[14] = 0, x[15] = initialPC, CPSR zero except T from the mode, SPSR 0, the buffer and its size as given, and no byte written. It rests on the spec's own choices: D18 and D19 (92_eei_decisions.md; log entry 15). (spec 70_reset_and_hazards.md section 1 (construction), 10_state.md section 6 (reset values), 92_eei_decisions.md D18 (bit places), D19) -/
def Obligations.ConstructionGivesTheResetValues : Prop :=
  ∀ (mem : Memory) (memSize : Nat) (pc : Word) (mode : Mode),
    let s := construct mem memSize pc mode
    (∀ r : Reg, r ≠ 15 → s.reg r = 0#32) ∧ s.pc = pc ∧ s.mode = mode ∧
      (∀ k : Nat, k ≠ 5 → s.cpsr.getLsbD k = false) ∧ s.spsr = 0#32 ∧ s.mem = mem ∧ s.memSize = memSize

/-- Construction from any snapshot takes its registers, SPSR, N, Z, C, V as given, forces the reserved CPSR bits to 0 and T to the mode; and constructing from the snapshot of a legal state over its memory gives that state back. It rests on the spec's own choices: D18 and D19 (92_eei_decisions.md; log entry 15). (spec 70_reset_and_hazards.md section 1 (snapshot), 92_eei_decisions.md D18, D19) -/
def Obligations.SnapshotConstructionForcesReservedBitsAndRestores : Prop :=
  (∀ (mem : Memory) (memSize : Nat) (snap : Snapshot),
      let s := constructFrom mem memSize snap
      (∀ r : Reg, s.reg r = snap.x[r.val]) ∧ s.spsr = snap.spsr ∧ s.mode = snap.mode ∧
        (∀ k : Nat, k < 32 → s.cpsr.getLsbD k =
          if 28 ≤ k then snap.cpsr.getLsbD k else decide (k = 5 ∧ snap.mode = .reduced)) ∧
        s.mem = mem ∧ s.memSize = memSize) ∧
    ∀ s : State, s.Legal → constructFrom s.mem s.memSize s.snapshot = s

/-- After an STR that retires from a state with canonical memory, a fetch in ARM mode at the stored address reads exactly the stored word (self-modifying code needs no fence), and an LDR from that address whose condition passes loads it. It rests on the spec's own choices: D6 (92_eei_decisions.md; log entry 15). (spec 20_memory.md section 2 (byte order), 20_memory.md section 3 (fetch coherence)) -/
def Obligations.StoredWordIsLoadedAndFetched : Prop :=
  ∀ (c : Cond) (rn rd : Reg) (s t u : State), s.mem.wf → s.passes c = true → exec (.str c rn rd) s = .next t →
    u.mem = t.mem → u.memSize = t.memSize →
    (u.mode = .arm → u.pc = s.reg rn → u.fetch = .ok (s.reg rd)) ∧
    ∀ (k : Cond) (rb re : Reg), u.passes k = true → u.reg rb = s.reg rn →
      ∃ z, exec (.ldr k rb re) u = .next z ∧ z.reg re = s.reg rd

/-- If count cycles retire from s ending in t, stepBatch(count) returns t without a fault; if k < count cycles retire ending in t and the next cycle faults, it returns t and that fault record; stepBatch(0) returns the state unchanged; and a batch never ends in a refusal. It rests on the spec's own choices: D22 (92_eei_decisions.md; log entry 15). (spec 45_execution_loop.md section 2 (the batch), 92_eei_decisions.md D22) -/
def Obligations.BatchRunsToCountOrStopsAtTheFirstFault : Prop :=
  (∀ (count : Word) (s t : State), RunsTo count.toNat s t → stepBatch count s = ⟨t, .completed⟩) ∧
    (∀ (count : Word) (k : Nat) (s t : State) (e : Fault), RunsTo k s t → k < count.toNat → step t = .fault e →
      stepBatch count s = ⟨t, .faulted e⟩) ∧
    (∀ s : State, stepBatch 0#32 s = ⟨s, .completed⟩) ∧
    ∀ (count : Word) (s : State) (r : Refusal), (stepBatch count s).ending ≠ .refused r

/-- If a batch of m cycles completes in t, a batch of m + n cycles is the batch of n cycles from t. If a batch ends in a fault, a further batch of at least one cycle from the returned state ends at once in that state with the same fault. It rests on the spec's own choices: D21 (92_eei_decisions.md; log entry 15). (spec 45_execution_loop.md section 2 (restart), 92_eei_decisions.md D21) -/
def Obligations.BatchRestartsFromTheReturnedState : Prop :=
  (∀ (m n : Word) (s t : State), m.toNat + n.toNat < 2 ^ 32 → stepBatch m s = ⟨t, .completed⟩ →
      stepBatch (m + n) s = stepBatch n t) ∧
    ∀ (m n : Word) (s t : State) (e : Fault), stepBatch m s = ⟨t, .faulted e⟩ → n ≠ 0#32 →
      stepBatch n t = ⟨t, .faulted e⟩

/-- At address addr: ADD Rd, pc, #0 (Rn = 15) and MOV Rd, pc (Rm = 15, LSL #0) retire with addr + 4 in Rd, for every Rd; STR pc, [Rn] stores addr + 4 at an aligned in-range address. It rests on the spec's own choices: D26 and D12 (92_eei_decisions.md; log entry 15). (spec 10_state.md section 2 (reads of x[15]), 70_reset_and_hazards.md section 3) -/
def Obligations.ReadOfThePcGivesTheNextAddress : Prop :=
  ∀ (c : Cond) (rd rn : Reg) (s : State), s.mode = .arm → s.pc.toNat % 4 = 0 → s.pc.toNat + 3 < s.memSize →
    s.passes c = true →
    (decodeWord (s.mem.readWord s.pc.toNat) = .ok (.addImm c false 15 rd 0 0#8) ∨
      decodeWord (s.mem.readWord s.pc.toNat) = .ok (.movReg c false rd 0 .lsl 15) →
      ∃ t, step s = .next t ∧ t.reg rd = s.pc + 4#32) ∧
    (decodeWord (s.mem.readWord s.pc.toNat) = .ok (.str c rn 15) → s.mem.wf →
      WordInMemory s.memSize (s.advance.reg rn) →
      ∃ t, step s = .next t ∧ t.mem.readWord (s.advance.reg rn).toNat = s.pc + 4#32)

/-- For every Rm, shift kind, shift amount and state, the register form of operand 2 has the value and the carry that the barrel shifter gives for x[Rm], that kind, that amount and the C flag, which is CPSR bit 29. It rests on the spec's own choices: the general-knowledge field positions and D18 (92_eei_decisions.md; log entry 15). (spec 41_shifter.md section 2 (register form), 90_conflicts.md C6 (the shift is applied)) -/
def Obligations.RegisterOperandIsTheShiftedRegister : Prop :=
  ∀ (rm : Reg) (kind : ShiftKind) (shamt : Fin 32) (s : State),
    s.op2Value (.shifted rm kind shamt) = (shift (s.reg rm) kind shamt (s.cpsr.getLsbD 29)).result ∧
    s.op2Carry (.shifted rm kind shamt) = (shift (s.reg rm) kind shamt (s.cpsr.getLsbD 29)).carryOut
end

