-- ==== Sys2Proof/Laws/Memory.lean ====
section
/-! SUPPORT. The laws of the memory buffer: read after write, the canonical form, the extent. -/

namespace Sys2Proof.Machine

/-- A write leaves every other address alone, in every memory. -/
theorem read_write_other (m : Memory) (a b : Nat) (v : Byte) (h : b ≠ a) : (m.write a v).read b = m.read b := by
  induction m with
  | nil => by_cases hv : v = Config.unlistedByte <;> simp [Memory.write, Memory.read, hv, h]
  | cons p rest ih =>
    obtain ⟨k, w⟩ := p
    simp only [Memory.write]
    split
    · split <;> simp [Memory.read, h]
    · split
      · subst_vars; split <;> simp [Memory.read, h]
      · simp only [Memory.read, ih]

/-- An address below every listed one reads as unlisted. -/
theorem read_of_lt (m : Memory) (a : Nat) (h : ∀ cell ∈ m, a < cell.1) : m.read a = Config.unlistedByte := by
  induction m with
  | nil => rfl
  | cons p rest ih =>
    have hp := h p (by simp)
    have : ¬ a = p.1 := by omega
    simp only [Memory.read, this, if_false]
    exact ih fun cell hc => h cell (by simp [hc])

theorem wf_tail {p : Host.Cell} {m : Memory} (h : Memory.wf (p :: m)) : Memory.wf m :=
  ⟨h.1.of_cons, fun cell hc => h.2 cell (by simp [hc])⟩

theorem wf_head_lt {p : Host.Cell} {m : Memory} (h : Memory.wf (p :: m)) : ∀ cell ∈ m, p.1 < cell.1 :=
  fun _ hc => List.rel_of_pairwise_cons h.1 hc

/-- Reading back what was written, in a canonical memory. -/
theorem read_write_same (m : Memory) (a : Nat) (v : Byte) (h : m.wf) : (m.write a v).read a = v := by
  induction m with
  | nil => by_cases hv : v = Config.unlistedByte <;> simp [Memory.write, Memory.read, hv]
  | cons p rest ih =>
    obtain ⟨k, w⟩ := p
    have hlt := wf_head_lt h
    simp only [Memory.write]
    split
    · rename_i hak
      split
      · rename_i hv
        rw [hv]
        exact read_of_lt _ _ (by rintro cell (_ | ⟨_, hc⟩); exacts [hak, Nat.lt_trans hak (hlt cell hc)])
      · simp [Memory.read]
    · split
      · rename_i hak
        split
        · rename_i hv
          rw [hv, hak]
          exact read_of_lt _ _ hlt
        · simp [Memory.read]
      · rename_i hne
        simp only [Memory.read, hne, if_false]
        exact ih (wf_tail h)

/-- Every cell after a write is an old cell or the written one, with a byte that is listed. -/
theorem mem_write (m : Memory) (a : Nat) (v : Byte) (cell : Host.Cell) (h : cell ∈ m.write a v) :
    cell ∈ m ∨ (cell = (a, v) ∧ v ≠ Config.unlistedByte) := by
  induction m with
  | nil =>
    simp only [Memory.write] at h
    split at h <;> simp_all
  | cons p rest ih =>
    obtain ⟨k, w⟩ := p
    simp only [Memory.write] at h
    split at h
    · split at h <;> simp_all
      tauto
    · split at h
      · split at h <;> simp_all
        tauto
      · rcases List.mem_cons.mp h with h | h
        · simp [h]
        · rcases ih h with h | h
          · simp [h]
          · exact Or.inr h

/-- A write keeps the canonical form. -/
theorem wf_write (m : Memory) (a : Nat) (v : Byte) (h : m.wf) : (m.write a v).wf := by
  refine ⟨?_, fun cell hc => ?_⟩
  · induction m with
    | nil => by_cases hv : v = Config.unlistedByte <;> simp [Memory.write, hv]
    | cons p rest ih =>
      obtain ⟨k, w⟩ := p
      have hlt := wf_head_lt h
      have hp := (wf_tail h).1
      simp only [Memory.write]
      split
      · rename_i hak
        split
        · exact h.1
        · exact List.Pairwise.cons (by rintro cell (_ | ⟨_, hc⟩); exacts [hak, Nat.lt_trans hak (hlt cell hc)]) h.1
      · split
        · rename_i hak
          split
          · exact hp
          · exact List.Pairwise.cons (fun cell hc => by simpa [hak] using hlt cell hc) hp
        · rename_i h1 h2
          refine List.Pairwise.cons (fun cell hc => ?_) (ih (wf_tail h))
          rcases mem_write _ _ _ _ hc with hc | ⟨rfl, -⟩
          · exact hlt cell hc
          · show k < a
            omega
  · rcases mem_write _ _ _ _ hc with hc | ⟨rfl, hv⟩
    · exact h.2 cell hc
    · exact hv

/-- A write inside the extent keeps every cell inside it. -/
theorem inExtent_write (m : Memory) (n a : Nat) (v : Byte) (h : ∀ cell ∈ m, cell.1 < n) (ha : a < n) :
    ∀ cell ∈ m.write a v, cell.1 < n := by
  intro cell hc
  rcases mem_write _ _ _ _ hc with hc | ⟨rfl, -⟩
  · exact h cell hc
  · exact ha

/-- Two canonical memories that read alike at every address are the same list. -/
theorem memory_ext (m : Memory) : ∀ m' : Memory, m.wf → m'.wf → (∀ a, m.read a = m'.read a) → m = m' := by
  induction m with
  | nil =>
    intro m' _ h' hr
    cases m' with
    | nil => rfl
    | cons p rest => exact absurd (by simpa [Memory.read] using (hr p.1).symm) (h'.2 p (by simp))
  | cons p rest ih =>
    intro m' h h' hr
    cases m' with
    | nil => exact absurd (by simpa [Memory.read] using hr p.1) (h.2 p (by simp))
    | cons q rest' =>
      have hp := h.2 p (by simp)
      have hq := h'.2 q (by simp)
      have hpr : (Memory.read (p :: rest) p.1) = p.2 := by simp [Memory.read]
      have hqr : (Memory.read (q :: rest') q.1) = q.2 := by simp [Memory.read]
      have hk : p.1 = q.1 := by
        rcases Nat.lt_trichotomy p.1 q.1 with hlt | heq | hgt
        · have := read_of_lt (q :: rest') p.1
            (by rintro cell (_ | ⟨_, hc⟩); exacts [hlt, Nat.lt_trans hlt (wf_head_lt h' cell hc)])
          exact absurd (by rw [← hpr, hr, this]) hp
        · exact heq
        · have := read_of_lt (p :: rest) q.1
            (by rintro cell (_ | ⟨_, hc⟩); exacts [hgt, Nat.lt_trans hgt (wf_head_lt h cell hc)])
          exact absurd (by rw [← hqr, ← hr, this]) hq
      have hv : p.2 = q.2 := by rw [← hpr, hr, hk, hqr]
      have hpq : p = q := Prod.ext hk hv
      subst hpq
      have : rest = rest' := by
        refine ih rest' (wf_tail h) (wf_tail h') fun a => ?_
        by_cases ha : a = p.1
        · rw [ha, read_of_lt _ _ (wf_head_lt h), read_of_lt _ _ (wf_head_lt h')]
        · simpa [Memory.read, ha] using hr a
      rw [this]

/-! ## Words -/

/-- The bytes of a word put together again are the word. -/
theorem wordOfBytes_byteOfWord (v : Word) :
    wordOfBytes (byteOfWord v 0) (byteOfWord v 1) (byteOfWord v 2) (byteOfWord v 3) = v := by
  apply BitVec.eq_of_getLsbD_eq
  intro i hi
  change BitVec.getLsbD (w := 8 + 8 + 8 + 8)
    (byteOfWord v 3 ++ byteOfWord v 2 ++ byteOfWord v 1 ++ byteOfWord v 0) i = _
  simp only [byteOfWord, BitVec.getLsbD_append, BitVec.getLsbD_extractLsb']
  split
  · simp [*]
  · split
    · simp [*, show 8 + (i - 8) = i by omega]
    · split
      · simp [*, show 16 + (i - 8 - 8) = i by omega]
      · simp [show 24 + (i - 8 - 8 - 8) = i by omega]
        omega

/-- The word at an address as a number: little-endian (20_memory.md R35). -/
theorem toNat_readWord (m : Memory) (a : Nat) : (m.readWord a).toNat = (m.read a).toNat +
    256 * (m.read (a + 1)).toNat + 65536 * (m.read (a + 2)).toNat + 16777216 * (m.read (a + 3)).toNat := by
  have cat : ∀ {p q : Nat} (x : BitVec p) (y : BitVec q), (x ++ y).toNat = x.toNat * 2 ^ q + y.toNat := by
    intro p q x y
    rw [BitVec.toNat_append, ← Nat.shiftLeft_add_eq_or_of_lt y.isLt, Nat.shiftLeft_eq]
  change BitVec.toNat (w := 8 + 8 + 8 + 8) (m.read (a + 3) ++ m.read (a + 2) ++ m.read (a + 1) ++ m.read a) = _
  simp only [cat]
  omega

/-- A word store keeps the canonical form. -/
theorem wf_writeWord (m : Memory) (a : Nat) (v : Word) (h : m.wf) : (m.writeWord a v).wf :=
  wf_write _ _ _ (wf_write _ _ _ (wf_write _ _ _ (wf_write _ _ _ h)))

/-- A word store leaves every byte outside its four alone. -/
theorem read_writeWord_other (m : Memory) (a b : Nat) (v : Word) (h : b < a ∨ a + 4 ≤ b) :
    (m.writeWord a v).read b = m.read b := by
  simp only [Memory.writeWord]
  rw [read_write_other _ _ _ _ (by omega), read_write_other _ _ _ _ (by omega), read_write_other _ _ _ _ (by omega),
    read_write_other _ _ _ _ (by omega)]

/-- Byte k of a stored word is read at a + k. -/
theorem read_writeWord (m : Memory) (a k : Nat) (v : Word) (h : m.wf) (hk : k < 4) :
    (m.writeWord a v).read (a + k) = byteOfWord v k := by
  have h0 := wf_write m a (byteOfWord v 0) h
  have h1 := wf_write _ (a + 1) (byteOfWord v 1) h0
  have h2 := wf_write _ (a + 2) (byteOfWord v 2) h1
  obtain rfl | rfl | rfl | rfl : k = 0 ∨ k = 1 ∨ k = 2 ∨ k = 3 := by omega
  · simp only [Memory.writeWord]
    rw [read_write_other _ _ _ _ (by omega), read_write_other _ _ _ _ (by omega),
      read_write_other _ _ _ _ (by omega)]
    exact read_write_same _ _ _ h
  · simp only [Memory.writeWord]
    rw [read_write_other _ _ _ _ (by omega), read_write_other _ _ _ _ (by omega), read_write_same _ _ _ h0]
  · simp only [Memory.writeWord]
    rw [read_write_other _ _ _ _ (by omega), read_write_same _ _ _ h1]
  · exact read_write_same _ _ _ h2

/-- A stored word is read back. -/
theorem readWord_writeWord (m : Memory) (a : Nat) (v : Word) (h : m.wf) : (m.writeWord a v).readWord a = v := by
  have h0 := read_writeWord m a 0 v h (by omega)
  rw [Nat.add_zero] at h0
  rw [Memory.readWord, h0, read_writeWord m a 1 v h (by omega), read_writeWord m a 2 v h (by omega),
    read_writeWord m a 3 v h (by omega), wordOfBytes_byteOfWord]

/-- A word store inside the extent keeps every cell inside it. -/
theorem inExtent_writeWord (m : Memory) (n a : Nat) (v : Word) (h : ∀ cell ∈ m, cell.1 < n) (ha : a + 3 < n) :
    ∀ cell ∈ m.writeWord a v, cell.1 < n :=
  inExtent_write _ _ _ _
    (inExtent_write _ _ _ _ (inExtent_write _ _ _ _ (inExtent_write _ _ _ _ h (by omega)) (by omega)) (by omega)) ha

end Sys2Proof.Machine
end

