-- ==== Sys2Proof/Laws/State.lean ====
section
/-! SUPPORT. The small lemmas of State: one per field per update, so that no later proof unfolds a record. -/

namespace Sys2Proof.Machine

/-! ## setReg -/

theorem reg_setReg (s : State) (r q : Reg) (v : Word) : (s.setReg r v).reg q = if q = r then v else s.reg q := by
  simp only [State.reg, State.setReg, Vector.getElem_set]
  by_cases h : q = r
  · simp [h]
  · have : ¬ r.val = q.val := fun e => h (Fin.ext e.symm)
    simp [h, this]

@[simp] theorem reg_setReg_same (s : State) (r : Reg) (v : Word) : (s.setReg r v).reg r = v := by
  simp [reg_setReg]

theorem reg_setReg_other (s : State) (r q : Reg) (v : Word) (h : q ≠ r) : (s.setReg r v).reg q = s.reg q := by
  simp [reg_setReg, h]

@[simp] theorem cpsr_setReg (s : State) (r : Reg) (v : Word) : (s.setReg r v).cpsr = s.cpsr := rfl
@[simp] theorem spsr_setReg (s : State) (r : Reg) (v : Word) : (s.setReg r v).spsr = s.spsr := rfl
@[simp] theorem mem_setReg (s : State) (r : Reg) (v : Word) : (s.setReg r v).mem = s.mem := rfl
@[simp] theorem memSize_setReg (s : State) (r : Reg) (v : Word) : (s.setReg r v).memSize = s.memSize := rfl

@[simp] theorem flagN_setReg (s : State) (r : Reg) (v : Word) : (s.setReg r v).flagN = s.flagN := rfl
@[simp] theorem flagZ_setReg (s : State) (r : Reg) (v : Word) : (s.setReg r v).flagZ = s.flagZ := rfl
@[simp] theorem flagC_setReg (s : State) (r : Reg) (v : Word) : (s.setReg r v).flagC = s.flagC := rfl
@[simp] theorem flagV_setReg (s : State) (r : Reg) (v : Word) : (s.setReg r v).flagV = s.flagV := rfl

/-! ## setPc -/

theorem reg_setPc (s : State) (q : Reg) (v : Word) : (s.setPc v).reg q = if q = 15 then v else s.reg q :=
  reg_setReg s 15 q v

@[simp] theorem pc_setPc (s : State) (v : Word) : (s.setPc v).pc = v := reg_setReg_same s 15 v
@[simp] theorem cpsr_setPc (s : State) (v : Word) : (s.setPc v).cpsr = s.cpsr := rfl
@[simp] theorem spsr_setPc (s : State) (v : Word) : (s.setPc v).spsr = s.spsr := rfl
@[simp] theorem mem_setPc (s : State) (v : Word) : (s.setPc v).mem = s.mem := rfl
@[simp] theorem memSize_setPc (s : State) (v : Word) : (s.setPc v).memSize = s.memSize := rfl

/-! ## setNzcv -/

@[simp] theorem reg_setNzcv (s : State) (n z c v : Bool) (r : Reg) : (s.setNzcv n z c v).reg r = s.reg r := rfl
@[simp] theorem spsr_setNzcv (s : State) (n z c v : Bool) : (s.setNzcv n z c v).spsr = s.spsr := rfl
@[simp] theorem mem_setNzcv (s : State) (n z c v : Bool) : (s.setNzcv n z c v).mem = s.mem := rfl
@[simp] theorem memSize_setNzcv (s : State) (n z c v : Bool) : (s.setNzcv n z c v).memSize = s.memSize := rfl

/-- Every bit of a status word after a flag write. -/
theorem withNzcv_getLsbD (cpsr : Word) (n z c v : Bool) (k : Nat) (hk : k < 32) :
    (withNzcv cpsr n z c v).getLsbD k =
      if k < 28 then cpsr.getLsbD k
      else if k = 28 then v else if k = 29 then c else if k = 30 then z else n := by
  change BitVec.getLsbD (w := 1 + 1 + 1 + 1 + 28) (BitVec.ofBool n ++ BitVec.ofBool z ++ BitVec.ofBool c ++
    BitVec.ofBool v ++ cpsr.extractLsb' 0 28) k = _
  simp only [BitVec.getLsbD_append, BitVec.getLsbD_extractLsb', BitVec.getLsbD_ofBool]
  by_cases h : k < 28
  · simp [h]
  · obtain rfl | rfl | rfl | rfl : k = 28 ∨ k = 29 ∨ k = 30 ∨ k = 31 := by omega
    all_goals simp

/-- The bits below 28 of a status word are kept by a flag write. -/
theorem withNzcv_low (cpsr : Word) (n z c v : Bool) (k : Nat) (h : k < 28) :
    (withNzcv cpsr n z c v).getLsbD k = cpsr.getLsbD k := by
  rw [withNzcv_getLsbD _ _ _ _ _ _ (by omega), if_pos h]

@[simp] theorem flagN_setNzcv (s : State) (n z c v : Bool) : (s.setNzcv n z c v).flagN = n :=
  withNzcv_getLsbD _ _ _ _ _ 31 (by omega)
@[simp] theorem flagZ_setNzcv (s : State) (n z c v : Bool) : (s.setNzcv n z c v).flagZ = z :=
  withNzcv_getLsbD _ _ _ _ _ 30 (by omega)
@[simp] theorem flagC_setNzcv (s : State) (n z c v : Bool) : (s.setNzcv n z c v).flagC = c :=
  withNzcv_getLsbD _ _ _ _ _ 29 (by omega)
@[simp] theorem flagV_setNzcv (s : State) (n z c v : Bool) : (s.setNzcv n z c v).flagV = v :=
  withNzcv_getLsbD _ _ _ _ _ 28 (by omega)

theorem cpsrLow_setNzcv (s : State) (n z c v : Bool) (k : Nat) (h : k < 28) :
    (s.setNzcv n z c v).cpsr.getLsbD k = s.cpsr.getLsbD k := withNzcv_low _ _ _ _ _ _ h

/-- A flag write keeps the mode. -/
@[simp] theorem mode_setNzcv (s : State) (n z c v : Bool) : (s.setNzcv n z c v).mode = s.mode := by
  simp only [State.mode, modeOfCpsr, cpsrLow_setNzcv s n z c v 5 (by omega)]

/-! ## A new memory -/

@[simp] theorem reg_withMem (s : State) (m : Memory) (r : Reg) : ({ s with mem := m } : State).reg r = s.reg r := rfl

/-! ## The PC advance -/

@[simp] theorem pc_advance (s : State) : s.advance.pc = s.pc + BitVec.ofNat 32 (fetchWidth s.mode) := pc_setPc ..
theorem reg_advance (s : State) (r : Reg) (h : r ≠ 15) : s.advance.reg r = s.reg r := reg_setReg_other _ _ _ _ h
@[simp] theorem cpsr_advance (s : State) : s.advance.cpsr = s.cpsr := rfl
@[simp] theorem spsr_advance (s : State) : s.advance.spsr = s.spsr := rfl
@[simp] theorem mem_advance (s : State) : s.advance.mem = s.mem := rfl
@[simp] theorem memSize_advance (s : State) : s.advance.memSize = s.memSize := rfl

/-- In ARM mode the address of the executing instruction is the PC before the advance. -/
theorem instrAddr_advance (s : State) (h : s.mode = .arm) : s.advance.instrAddr = s.pc := by
  simp [State.instrAddr, h, fetchWidth]

/-- Two states with the same registers, status words, memory and size are the same. -/
theorem State.ext_of_reg (s t : State) (hr : ∀ r, s.reg r = t.reg r) (hc : s.cpsr = t.cpsr) (hs : s.spsr = t.spsr)
    (hm : s.mem = t.mem) (hz : s.memSize = t.memSize) : s = t := by
  obtain ⟨x, c, p, m, z⟩ := s
  obtain ⟨x', c', p', m', z'⟩ := t
  have hx : x = x' := Vector.ext fun i hi => hr ⟨i, hi⟩
  simp_all

end Sys2Proof.Machine
end

