-- ==== Sys2Proof/Laws/Exec.lean ====
section
/-! SUPPORT. What the shared operations and the meanings can do, said once each. -/

namespace Sys2Proof.Machine

/-! ## Checks -/

theorem alignedTo_iff (a : Word) (n : Nat) : alignedTo a n = true ↔ a.toNat % n = 0 := by
  simp [alignedTo]

theorem inRange_iff (memSize : Nat) (a : Word) (n : Nat) : inRange memSize a n = true ↔ a.toNat + n - 1 < memSize := by
  simp [inRange]

theorem dataAccessOk_iff (memSize : Nat) (a : Word) :
    dataAccessOk memSize a = true ↔ a.toNat % 4 = 0 ∧ a.toNat + 3 < memSize := by
  simp [dataAccessOk, alignedTo, inRange]

/-! ## Fetch -/

theorem fetch_unaligned (s : State) (h : s.pc.toNat % fetchWidth s.mode ≠ 0) :
    s.fetch = .error (.unalignedFetch s.pc s.pc) := by
  simp [State.fetch, alignedTo, h]

theorem fetch_outOfRange (s : State) (h : s.pc.toNat % fetchWidth s.mode = 0)
    (hr : s.memSize ≤ s.pc.toNat + fetchWidth s.mode - 1) : s.fetch = .error (.invalidAddress s.pc s.pc) := by
  have : ¬ s.pc.toNat + fetchWidth s.mode - 1 < s.memSize := by omega
  simp [State.fetch, alignedTo, inRange, h, this]

theorem fetch_arm (s : State) (hm : s.mode = .arm) (h : s.pc.toNat % 4 = 0) (hr : s.pc.toNat + 3 < s.memSize) :
    s.fetch = .ok (s.mem.readWord s.pc.toNat) := by
  simp [State.fetch, alignedTo, inRange, fetchWidth, hm, h, hr]

theorem fetch_reduced (s : State) (hm : s.mode = .reduced) (h : s.pc.toNat % 2 = 0)
    (hr : s.pc.toNat + 1 < s.memSize) : s.fetch = .ok ((s.mem.readHalf s.pc.toNat).setWidth 32) := by
  simp [State.fetch, alignedTo, inRange, fetchWidth, hm, h, hr]

/-- A fetch that does not fault passed both checks. -/
theorem fetch_ok (s : State) (w : Word) (h : s.fetch = .ok w) :
    s.pc.toNat % fetchWidth s.mode = 0 ∧ s.pc.toNat + fetchWidth s.mode - 1 < s.memSize := by
  by_cases h1 : s.pc.toNat % fetchWidth s.mode = 0
  · by_cases h2 : s.pc.toNat + fetchWidth s.mode - 1 < s.memSize
    · exact ⟨h1, h2⟩
    · rw [fetch_outOfRange s h1 (by omega)] at h; cases h
  · rw [fetch_unaligned s h1] at h; cases h

/-- In ARM mode a fetch that does not fault read the word at the PC. -/
theorem fetch_ok_arm (s : State) (w : Word) (hm : s.mode = .arm) (h : s.fetch = .ok w) :
    s.pc.toNat % 4 = 0 ∧ s.pc.toNat + 3 < s.memSize ∧ w = s.mem.readWord s.pc.toNat := by
  obtain ⟨h1, h2⟩ := fetch_ok s w h
  rw [hm] at h1 h2
  have h2' : s.pc.toNat + 3 < s.memSize := h2
  rw [fetch_arm s hm h1 h2'] at h
  exact ⟨h1, h2', (Except.ok.inj h).symm⟩

/-! ## The condition gate -/

theorem whenPasses_pass (k : Cond) (s : State) (e : State → Result) (h : s.passes k = true) :
    whenPasses k s e = e s := by simp [whenPasses, h]

theorem whenPasses_fail (k : Cond) (s : State) (e : State → Result) (h : s.passes k = false) :
    whenPasses k s e = .next s := by simp [whenPasses, h]

/-! ## Data processing -/

/-- The ALU's outputs for a data-processing instruction in a state (42_data_processing.md R87). -/
def dpOut (d : DpFields) (s : State) : AluOut :=
  alu d.op (s.reg d.rn) (s.op2Value d.op2) s.flagC (s.op2Carry d.op2) s.flagV

/-- The V flag that flag setting writes. -/
def dpOverflow (d : DpFields) (s : State) : Bool := newOverflow (aluGroup d.op) (dpOut d s) s.flagV

/-- The state after a data-processing instruction: the register, then the flags. -/
def dpNext (d : DpFields) (s : State) : State :=
  let t := if d.op.testOnly then s else s.setReg d.rd (dpOut d s).result
  if d.setFlags then
    t.setNzcv ((dpOut d s).result.getLsbD 31) ((dpOut d s).result == 0#32) (dpOut d s).carryOut (dpOverflow d s)
  else t

/-- `ExecDP` always retires. -/
theorem execDp_eq (d : DpFields) (s : State) : execDp d.op d.setFlags d.rn d.rd d.op2 s = .next (dpNext d s) := by
  simp only [execDp, flagUpdate, dpNext, dpOverflow, dpOut]
  cases d.setFlags <;> cases d.op.testOnly <;> simp only [flagV_setReg, if_true, Bool.false_eq_true, if_false]

/-- The registers after a data-processing instruction. -/
theorem reg_dpNext (d : DpFields) (s : State) (r : Reg) :
    (dpNext d s).reg r = if d.op.testOnly = false ∧ r = d.rd then (dpOut d s).result else s.reg r := by
  simp only [dpNext]
  cases d.setFlags <;> cases d.op.testOnly <;> simp [reg_setReg]

@[simp] theorem spsr_dpNext (d : DpFields) (s : State) : (dpNext d s).spsr = s.spsr := by
  simp only [dpNext]; cases d.setFlags <;> cases d.op.testOnly <;> rfl
@[simp] theorem mem_dpNext (d : DpFields) (s : State) : (dpNext d s).mem = s.mem := by
  simp only [dpNext]; cases d.setFlags <;> cases d.op.testOnly <;> rfl
@[simp] theorem memSize_dpNext (d : DpFields) (s : State) : (dpNext d s).memSize = s.memSize := by
  simp only [dpNext]; cases d.setFlags <;> cases d.op.testOnly <;> rfl

/-- The CPSR after a data-processing instruction. -/
theorem cpsr_dpNext (d : DpFields) (s : State) : (dpNext d s).cpsr =
    if d.setFlags then
      withNzcv s.cpsr ((dpOut d s).result.getLsbD 31) ((dpOut d s).result == 0#32) (dpOut d s).carryOut
        (dpOverflow d s)
    else s.cpsr := by
  simp only [dpNext]; cases d.setFlags <;> cases d.op.testOnly <;> rfl

/-! ## The meanings -/

/-- Each of the 32 data-processing instructions is `ExecDP` on its operands, when its condition passes. -/
theorem exec_dp (i : Instr) (d : DpFields) (s : State) (h : i.dp? = some d) :
    exec i s = if s.passes i.cond then .next (dpNext d s) else .next s := by
  have : exec i s = whenPasses i.cond s (execDp d.op d.setFlags d.rn d.rd d.op2) := by
    cases i <;> simp only [Instr.dp?, Option.some.injEq, reduceCtorEq] at h <;> subst h <;> rfl
  rw [this, whenPasses, execDp_eq]

theorem exec_b (c : Cond) (imm24 : BitVec 24) (s : State) (h : s.passes c = true) :
    exec (.b c imm24) s = .next (s.setPc (s.branchTarget imm24)) := by
  show execB c imm24 s = _
  rw [execB, whenPasses_pass _ _ _ h]

theorem exec_bl (c : Cond) (imm24 : BitVec 24) (s : State) (h : s.passes c = true) :
    exec (.bl c imm24) s = .next ((s.setReg 14 s.pc).setPc (s.branchTarget imm24)) := by
  show execBl c imm24 s = _
  rw [execBl, whenPasses_pass _ _ _ h]

theorem exec_ldr_ok (c : Cond) (rn rd : Reg) (s : State) (h : s.passes c = true)
    (ha : dataAccessOk s.memSize (s.reg rn) = true) :
    exec (.ldr c rn rd) s = .next (s.setReg rd (s.mem.readWord (s.reg rn).toNat)) := by
  show execLdr c rn rd s = _
  rw [execLdr, whenPasses_pass _ _ _ h]
  simp [State.loadWord, ha]

theorem exec_ldr_fault (c : Cond) (rn rd : Reg) (s : State) (h : s.passes c = true)
    (ha : dataAccessOk s.memSize (s.reg rn) = false) :
    exec (.ldr c rn rd) s = .fault (.invalidAddress s.instrAddr (s.reg rn)) := by
  show execLdr c rn rd s = _
  rw [execLdr, whenPasses_pass _ _ _ h]
  simp [State.loadWord, ha, raise]

theorem exec_str_ok (c : Cond) (rn rd : Reg) (s : State) (h : s.passes c = true)
    (ha : dataAccessOk s.memSize (s.reg rn) = true) :
    exec (.str c rn rd) s = .next { s with mem := s.mem.writeWord (s.reg rn).toNat (s.reg rd) } := by
  show execStr c rn rd s = _
  rw [execStr, whenPasses_pass _ _ _ h]
  simp [State.storeWord, ha]

theorem exec_str_fault (c : Cond) (rn rd : Reg) (s : State) (h : s.passes c = true)
    (ha : dataAccessOk s.memSize (s.reg rn) = false) :
    exec (.str c rn rd) s = .fault (.invalidAddress s.instrAddr (s.reg rn)) := by
  show execStr c rn rd s = _
  rw [execStr, whenPasses_pass _ _ _ h]
  simp [State.storeWord, ha, raise]

/-- An instruction is data processing, B, BL, LDR or STR. -/
theorem instr_cases (i : Instr) : (∃ d, i.dp? = some d) ∨ (∃ c imm24, i = .b c imm24) ∨ (∃ c imm24, i = .bl c imm24) ∨
    (∃ c rn rd, i = .ldr c rn rd) ∨ ∃ c rn rd, i = .str c rn rd := by
  cases i <;> simp [Instr.dp?]

/-- Every way an instruction whose condition passes can answer a next state. -/
theorem exec_next (i : Instr) (s t : State) (hp : s.passes i.cond = true) (h : exec i s = .next t) :
    (∃ d, i.dp? = some d ∧ t = dpNext d s) ∨ (∃ c imm24, i = .b c imm24 ∧ t = s.setPc (s.branchTarget imm24)) ∨
    (∃ c imm24, i = .bl c imm24 ∧ t = (s.setReg 14 s.pc).setPc (s.branchTarget imm24)) ∨
    (∃ c rn rd, i = .ldr c rn rd ∧ dataAccessOk s.memSize (s.reg rn) = true ∧
      t = s.setReg rd (s.mem.readWord (s.reg rn).toNat)) ∨
    ∃ c rn rd, i = .str c rn rd ∧ dataAccessOk s.memSize (s.reg rn) = true ∧
      t = { s with mem := s.mem.writeWord (s.reg rn).toNat (s.reg rd) } := by
  rcases instr_cases i with ⟨d, hd⟩ | ⟨c, m, rfl⟩ | ⟨c, m, rfl⟩ | ⟨c, rn, rd, rfl⟩ | ⟨c, rn, rd, rfl⟩
  · rw [exec_dp i d s hd, hp] at h
    exact Or.inl ⟨d, hd, (Host.Outcome.next.inj h).symm⟩
  · rw [exec_b c m s hp] at h
    exact Or.inr (Or.inl ⟨c, m, rfl, (Host.Outcome.next.inj h).symm⟩)
  · rw [exec_bl c m s hp] at h
    exact Or.inr (Or.inr (Or.inl ⟨c, m, rfl, (Host.Outcome.next.inj h).symm⟩))
  · cases ha : dataAccessOk s.memSize (s.reg rn)
    · rw [exec_ldr_fault c rn rd s hp ha] at h
      cases h
    · rw [exec_ldr_ok c rn rd s hp ha] at h
      exact Or.inr (Or.inr (Or.inr (Or.inl ⟨c, rn, rd, rfl, ha, (Host.Outcome.next.inj h).symm⟩)))
  · cases ha : dataAccessOk s.memSize (s.reg rn)
    · rw [exec_str_fault c rn rd s hp ha] at h
      cases h
    · rw [exec_str_ok c rn rd s hp ha] at h
      exact Or.inr (Or.inr (Or.inr (Or.inr ⟨c, rn, rd, rfl, ha, (Host.Outcome.next.inj h).symm⟩)))

/-! ## The cycle -/

/-- The cycle on a fetched word in ARM mode is one of four things (60_exceptions.md R129, checks 4 to 6). -/
theorem step_reserved (s : State) (w : Word) (hm : s.mode = .arm) (hf : s.fetch = .ok w)
    (he : s.evaluates w = .reserved) : step s = .fault (.unsupportedInstruction s.pc w) := by
  simp [step, cycle, cycleOn, hm, hf, he, raise]

theorem step_fail (s : State) (w : Word) (hm : s.mode = .arm) (hf : s.fetch = .ok w)
    (he : s.evaluates w = .fail) : step s = .next s.advance := by
  simp [step, cycle, cycleOn, hm, hf, he]

theorem step_undecodable (s : State) (w : Word) (e : DecodeError) (hm : s.mode = .arm) (hf : s.fetch = .ok w)
    (he : s.evaluates w = .pass) (hd : decodeWord w = .error e) :
    step s = .fault (.unsupportedInstruction s.pc w) := by
  simp [step, cycle, cycleOn, hm, hf, he, hd, raise]

theorem step_decoded (s : State) (w : Word) (i : Instr) (hm : s.mode = .arm) (hf : s.fetch = .ok w)
    (he : s.evaluates w = .pass) (hd : decodeWord w = .ok i) : step s = exec i s.advance := by
  simp [step, cycle, cycleOn, hm, hf, he, hd]

/-- A step in reduced mode never decodes (30_encoding.md R60). -/
theorem step_reduced (s : State) (w : Word) (hm : s.mode = .reduced) (hf : s.fetch = .ok w) :
    step s = .fault (.unsupportedInstruction s.pc w) := by
  simp [step, cycle, cycleOn, hm, hf, raise]

/-- A step whose fetch faults is that fault. -/
theorem step_fetchFault (s : State) (e : Fault) (hf : s.fetch = .error e) : step s = .fault e := by
  simp [step, cycle, hf, raise]

/-- The evaluator on a word that decodes is the instruction's own condition test (log entry 7). -/
theorem evaluates_decoded (s : State) (w : Word) (c : Cond) (h : Cond.ofCode (w.extractLsb' 28 4) = some c) :
    s.evaluates w = if s.passes c then .pass else .fail := by
  simp only [State.evaluates, evaluate, h, State.passes]
  rfl

/-- Every way a step can answer a next state. -/
theorem step_next (s t : State) (h : step s = .next t) :
    s.mode = .arm ∧ ∃ w, s.fetch = .ok w ∧
      (s.evaluates w = .fail ∧ t = s.advance ∨
        s.evaluates w = .pass ∧ ∃ i, decodeWord w = .ok i ∧ exec i s.advance = .next t) := by
  simp only [step, cycle] at h
  split at h
  · simp [raise] at h
  · rename_i w hf
    simp only [cycleOn] at h
    split at h
    · simp [raise] at h
    · rename_i hm
      refine ⟨hm, w, hf, ?_⟩
      split at h
      · simp [raise] at h
      · rename_i he
        exact Or.inl ⟨he, (Host.Outcome.next.inj h).symm⟩
      · rename_i he
        split at h
        · simp [raise] at h
        · rename_i i hi
          exact Or.inr ⟨he, i, hi, h⟩

end Sys2Proof.Machine
end

