-- ==== Sys2Proof/Laws/Batch.lean ====
section
/-! SUPPORT. The laws of the batch and of construction from a snapshot. -/

namespace Sys2Proof.Machine

/-! ## The batch (45_execution_loop.md R121) -/

theorem stepBatch_one_next (s t : State) (h : step s = .next t) : stepBatch 1#32 s = ⟨t, .completed⟩ := by
  simp [stepBatch, runCycles, h]

theorem stepBatch_one_fault (s : State) (e : Fault) (h : step s = .fault e) : stepBatch 1#32 s = ⟨s, .faulted e⟩ := by
  simp [stepBatch, runCycles, h]

/-- Cycles that retire can be taken off the front of a batch. -/
theorem runCycles_add (n k : Nat) (s t : State) (h : RunsTo k s t) : runCycles (k + n) s = runCycles n t := by
  induction k generalizing s with
  | zero => rw [show t = s from h, Nat.zero_add]
  | succ k ih =>
    obtain ⟨u, hu, hr⟩ := h
    rw [show k + 1 + n = (k + n) + 1 by omega, runCycles, hu]
    exact ih u hr

/-! ## The status word of a snapshot (70_reset_and_hazards.md R138) -/

/-- Every bit of the status word that construction from a snapshot gives. -/
theorem snapshotCpsr_getLsbD (c : Word) (m : Mode) (k : Nat) (hk : k < 32) : (snapshotCpsr c m).getLsbD k =
    if 28 ≤ k then c.getLsbD k else decide (k = 5 ∧ m = .reduced) := by
  rw [snapshotCpsr.eq_def, BitVec.getLsbD_or, BitVec.getLsbD_and]
  obtain ⟨j, rfl⟩ : ∃ j : Fin 32, k = j.val := ⟨⟨k, hk⟩, rfl⟩
  have hb : (0xF0000000#32).getLsbD j.val = decide (28 ≤ j.val) := by clear hk; revert j; decide
  have hr : (0x00000020#32).getLsbD j.val = decide (j.val = 5) := by clear hk hb; revert j; decide
  rw [hb]
  by_cases h : 28 ≤ j.val
  · have h5 : j.val ≠ 5 := by omega
    cases m
    · simp only [h, decide_true, Bool.and_true, BitVec.getLsbD_zero, Bool.or_false, if_true]
    · simp only [h, hr, h5, decide_true, decide_false, Bool.and_true, Bool.or_false, if_true]
  · cases m
    · simp [h]
    · simp only [h, hr]
      simp

/-- The reserved status bits are zero exactly when every bit below 28 but the T bit is (10_state.md R19). -/
theorem reservedZero_iff (c : Word) :
    c &&& 0x0FFFFFDF#32 = 0#32 ↔ ∀ k : Nat, k < 28 → k ≠ 5 → c.getLsbD k = false := by
  constructor
  · intro h k hk h5
    have := congrArg (fun w : Word => w.getLsbD k) h
    simp only [BitVec.getLsbD_and] at this
    have hb : (0x0FFFFFDF#32).getLsbD k = true := by
      obtain ⟨j, rfl⟩ : ∃ j : Fin 28, k = j.val := ⟨⟨k, hk⟩, rfl⟩
      clear hk this
      revert h5
      revert j
      decide
    rw [hb] at this
    simpa using this
  · intro h
    apply BitVec.eq_of_getLsbD_eq
    intro k hk
    rw [BitVec.getLsbD_and]
    by_cases h1 : k < 28 ∧ k ≠ 5
    · rw [h k h1.1 h1.2]
      simp
    · have hb : (0x0FFFFFDF#32).getLsbD k = false := by
        obtain ⟨j, rfl⟩ : ∃ j : Fin 32, k = j.val := ⟨⟨k, hk⟩, rfl⟩
        clear hk
        revert h1
        revert j
        decide
      rw [hb]
      simp

end Sys2Proof.Machine
end

