-- ==== Sys2Proof/Laws/Encoding.lean ====
section
/-! SUPPORT. The laws of the encoding: field codes are inverse to their decoders, and each field of an encoded
word is read back at its place. A word is handled as the sum of its fields at their weights. -/

namespace Sys2Proof

/-! ## Field codes -/

@[simp] theorem condOfCode_code (c : Cond) : Cond.ofCode c.code = some c := by cases c <;> rfl
@[simp] theorem dpOpOfCode_code (op : DpOp) : DpOp.ofCode op.code = op := by cases op <;> rfl
@[simp] theorem shiftKindOfCode_code (k : ShiftKind) : ShiftKind.ofCode k.code = k := by cases k <;> rfl

theorem code_of_condOfCode (v : BitVec 4) (c : Cond) (h : Cond.ofCode v = some c) : c.code = v := by
  revert v; cases c <;> decide
theorem code_dpOpOfCode (v : BitVec 4) : (DpOp.ofCode v).code = v := by revert v; decide
theorem code_shiftKindOfCode (v : BitVec 2) : (ShiftKind.ofCode v).code = v := by revert v; decide
theorem condOfCode_none (v : BitVec 4) : Cond.ofCode v = none ↔ v = 0b1111#4 := by revert v; decide

@[simp] theorem toNat_bits4 (r : Fin 16) : (bits4 r).toNat = r.val := by simp [bits4]
@[simp] theorem toNat_bits5 (n : Fin 32) : (bits5 n).toNat = n.val := by simp [bits5]
@[simp] theorem index4_bits4 (r : Fin 16) : index4 (bits4 r) = r := Fin.ext (toNat_bits4 r)
@[simp] theorem index5_bits5 (n : Fin 32) : index5 (bits5 n) = n := Fin.ext (toNat_bits5 n)
@[simp] theorem bits4_index4 (v : BitVec 4) : bits4 (index4 v) = v := BitVec.eq_of_toNat_eq (toNat_bits4 _)
@[simp] theorem bits5_index5 (v : BitVec 5) : bits5 (index5 v) = v := BitVec.eq_of_toNat_eq (toNat_bits5 _)

/-! ## Words as numbers -/

theorem toNat_cat {m n : Nat} (x : BitVec m) (y : BitVec n) : (x ++ y).toNat = x.toNat * 2 ^ n + y.toNat := by
  rw [BitVec.toNat_append, ← Nat.shiftLeft_add_eq_or_of_lt y.isLt, Nat.shiftLeft_eq]

theorem toNat_extract (w : Word) (lo n : Nat) : (w.extractLsb' lo n).toNat = w.toNat / 2 ^ lo % 2 ^ n := by
  rw [BitVec.extractLsb'_toNat, Nat.shiftRight_eq_div_pow]

theorem getLsbD_eq_div (w : Word) (k : Nat) : w.getLsbD k = decide (w.toNat / 2 ^ k % 2 = 1) := by
  rw [BitVec.getLsbD, Nat.testBit_eq_decide_div_mod_eq]

/-- A field of a word is v when the number at its place is. -/
theorem extract_eq {w : Word} {lo n : Nat} {v : BitVec n} (h : w.toNat / 2 ^ lo % 2 ^ n = v.toNat) :
    w.extractLsb' lo n = v := BitVec.eq_of_toNat_eq (by rw [toNat_extract, h])

theorem toNat_dpImmWord (c : Cond) (op : DpOp) (f : Bool) (rn rd : Reg) (rot : Fin 16) (imm8 : Byte) :
    (dpImmWord c op f rn rd rot imm8).toNat = c.code.toNat * 2 ^ 28 + 2 ^ 25 + op.code.toNat * 2 ^ 21 +
      f.toNat * 2 ^ 20 + rn.val * 2 ^ 16 + rd.val * 2 ^ 12 + rot.val * 2 ^ 8 + imm8.toNat := by
  change BitVec.toNat (w := 4 + 3 + 4 + 1 + 4 + 4 + 4 + 8)
    (c.code ++ 0b001#3 ++ op.code ++ BitVec.ofBool f ++ bits4 rn ++ bits4 rd ++ bits4 rot ++ imm8) = _
  simp only [toNat_cat, toNat_bits4, BitVec.toNat_ofBool]
  simp
  omega

theorem toNat_dpRegWord (c : Cond) (op : DpOp) (f : Bool) (rn rd : Reg) (shamt : Fin 32) (kind : ShiftKind) (rm : Reg) :
    (dpRegWord c op f rn rd shamt kind rm).toNat = c.code.toNat * 2 ^ 28 + op.code.toNat * 2 ^ 21 +
      f.toNat * 2 ^ 20 + rn.val * 2 ^ 16 + rd.val * 2 ^ 12 + shamt.val * 2 ^ 7 + kind.code.toNat * 2 ^ 5 +
      rm.val := by
  change BitVec.toNat (w := 4 + 3 + 4 + 1 + 4 + 4 + 5 + 2 + 1 + 4)
    (c.code ++ 0b000#3 ++ op.code ++ BitVec.ofBool f ++ bits4 rn ++ bits4 rd ++ bits5 shamt ++ kind.code ++ 0#1 ++
      bits4 rm) = _
  simp only [toNat_cat, toNat_bits4, toNat_bits5, BitVec.toNat_ofBool]
  simp
  omega

theorem toNat_branchWord (c : Cond) (l : Bool) (imm24 : BitVec 24) :
    (branchWord c l imm24).toNat = c.code.toNat * 2 ^ 28 + 5 * 2 ^ 25 + l.toNat * 2 ^ 24 + imm24.toNat := by
  change BitVec.toNat (w := 4 + 3 + 1 + 24) (c.code ++ 0b101#3 ++ BitVec.ofBool l ++ imm24) = _
  simp only [toNat_cat, BitVec.toNat_ofBool]
  simp
  omega

theorem toNat_transferWord (c : Cond) (l : Bool) (rn rd : Reg) :
    (transferWord c l rn rd).toNat = c.code.toNat * 2 ^ 28 + 2 * 2 ^ 25 + 12 * 2 ^ 21 + l.toNat * 2 ^ 20 +
      rn.val * 2 ^ 16 + rd.val * 2 ^ 12 := by
  change BitVec.toNat (w := 4 + 3 + 4 + 1 + 4 + 4 + 12)
    (c.code ++ 0b010#3 ++ 0b1100#4 ++ BitVec.ofBool l ++ bits4 rn ++ bits4 rd ++ 0#12) = _
  simp only [toNat_cat, toNat_bits4, BitVec.toNat_ofBool]
  simp
  omega

/-! ## The fields of an encoded word -/

@[simp] theorem dpImmWord_cond (c : Cond) (op : DpOp) (f : Bool) (rn rd : Reg) (rot : Fin 16) (imm8 : Byte) :
    (dpImmWord c op f rn rd rot imm8).extractLsb' 28 4 = c.code := by
  have := f.toNat_le
  exact extract_eq (by rw [toNat_dpImmWord]; simp; omega)

@[simp] theorem dpImmWord_cls (c : Cond) (op : DpOp) (f : Bool) (rn rd : Reg) (rot : Fin 16) (imm8 : Byte) :
    (dpImmWord c op f rn rd rot imm8).extractLsb' 25 3 = 0b001#3 := by
  have := f.toNat_le
  exact extract_eq (by rw [toNat_dpImmWord]; simp; omega)

@[simp] theorem dpImmWord_op (c : Cond) (op : DpOp) (f : Bool) (rn rd : Reg) (rot : Fin 16) (imm8 : Byte) :
    (dpImmWord c op f rn rd rot imm8).extractLsb' 21 4 = op.code := by
  have := f.toNat_le
  exact extract_eq (by rw [toNat_dpImmWord]; simp; omega)

@[simp] theorem dpImmWord_f (c : Cond) (op : DpOp) (f : Bool) (rn rd : Reg) (rot : Fin 16) (imm8 : Byte) :
    (dpImmWord c op f rn rd rot imm8)[20] = f := by
  rw [← BitVec.getLsbD_eq_getElem, getLsbD_eq_div, toNat_dpImmWord]
  cases f <;> simp <;> omega

@[simp] theorem dpImmWord_rn (c : Cond) (op : DpOp) (f : Bool) (rn rd : Reg) (rot : Fin 16) (imm8 : Byte) :
    (dpImmWord c op f rn rd rot imm8).extractLsb' 16 4 = bits4 rn := by
  have := f.toNat_le
  exact extract_eq (by rw [toNat_dpImmWord]; simp; omega)

@[simp] theorem dpImmWord_rd (c : Cond) (op : DpOp) (f : Bool) (rn rd : Reg) (rot : Fin 16) (imm8 : Byte) :
    (dpImmWord c op f rn rd rot imm8).extractLsb' 12 4 = bits4 rd := by
  have := f.toNat_le
  exact extract_eq (by rw [toNat_dpImmWord]; simp; omega)

@[simp] theorem dpImmWord_rot (c : Cond) (op : DpOp) (f : Bool) (rn rd : Reg) (rot : Fin 16) (imm8 : Byte) :
    (dpImmWord c op f rn rd rot imm8).extractLsb' 8 4 = bits4 rot := by
  have := f.toNat_le
  exact extract_eq (by rw [toNat_dpImmWord]; simp; omega)

@[simp] theorem dpImmWord_imm8 (c : Cond) (op : DpOp) (f : Bool) (rn rd : Reg) (rot : Fin 16) (imm8 : Byte) :
    (dpImmWord c op f rn rd rot imm8).extractLsb' 0 8 = imm8 := by
  have := f.toNat_le
  exact extract_eq (by rw [toNat_dpImmWord]; simp; omega)

@[simp] theorem dpRegWord_cond (c : Cond) (op : DpOp) (f : Bool) (rn rd : Reg) (shamt : Fin 32) (kind : ShiftKind) (rm : Reg) :
    (dpRegWord c op f rn rd shamt kind rm).extractLsb' 28 4 = c.code := by
  have := f.toNat_le
  exact extract_eq (by rw [toNat_dpRegWord]; simp; omega)

@[simp] theorem dpRegWord_cls (c : Cond) (op : DpOp) (f : Bool) (rn rd : Reg) (shamt : Fin 32) (kind : ShiftKind) (rm : Reg) :
    (dpRegWord c op f rn rd shamt kind rm).extractLsb' 25 3 = 0b000#3 := by
  have := f.toNat_le
  exact extract_eq (by rw [toNat_dpRegWord]; simp; omega)

@[simp] theorem dpRegWord_op (c : Cond) (op : DpOp) (f : Bool) (rn rd : Reg) (shamt : Fin 32) (kind : ShiftKind) (rm : Reg) :
    (dpRegWord c op f rn rd shamt kind rm).extractLsb' 21 4 = op.code := by
  have := f.toNat_le
  exact extract_eq (by rw [toNat_dpRegWord]; simp; omega)

@[simp] theorem dpRegWord_f (c : Cond) (op : DpOp) (f : Bool) (rn rd : Reg) (shamt : Fin 32) (kind : ShiftKind) (rm : Reg) :
    (dpRegWord c op f rn rd shamt kind rm)[20] = f := by
  rw [← BitVec.getLsbD_eq_getElem, getLsbD_eq_div, toNat_dpRegWord]
  cases f <;> simp <;> omega

@[simp] theorem dpRegWord_rn (c : Cond) (op : DpOp) (f : Bool) (rn rd : Reg) (shamt : Fin 32) (kind : ShiftKind) (rm : Reg) :
    (dpRegWord c op f rn rd shamt kind rm).extractLsb' 16 4 = bits4 rn := by
  have := f.toNat_le
  exact extract_eq (by rw [toNat_dpRegWord]; simp; omega)

@[simp] theorem dpRegWord_rd (c : Cond) (op : DpOp) (f : Bool) (rn rd : Reg) (shamt : Fin 32) (kind : ShiftKind) (rm : Reg) :
    (dpRegWord c op f rn rd shamt kind rm).extractLsb' 12 4 = bits4 rd := by
  have := f.toNat_le
  exact extract_eq (by rw [toNat_dpRegWord]; simp; omega)

@[simp] theorem dpRegWord_shamt (c : Cond) (op : DpOp) (f : Bool) (rn rd : Reg) (shamt : Fin 32) (kind : ShiftKind) (rm : Reg) :
    (dpRegWord c op f rn rd shamt kind rm).extractLsb' 7 5 = bits5 shamt := by
  have := f.toNat_le
  exact extract_eq (by rw [toNat_dpRegWord]; simp; omega)

@[simp] theorem dpRegWord_kind (c : Cond) (op : DpOp) (f : Bool) (rn rd : Reg) (shamt : Fin 32) (kind : ShiftKind) (rm : Reg) :
    (dpRegWord c op f rn rd shamt kind rm).extractLsb' 5 2 = kind.code := by
  have := f.toNat_le
  exact extract_eq (by rw [toNat_dpRegWord]; simp; omega)

@[simp] theorem dpRegWord_bit4 (c : Cond) (op : DpOp) (f : Bool) (rn rd : Reg) (shamt : Fin 32) (kind : ShiftKind) (rm : Reg) :
    (dpRegWord c op f rn rd shamt kind rm)[4] = false := by
  rw [← BitVec.getLsbD_eq_getElem, getLsbD_eq_div, toNat_dpRegWord]
  have := f.toNat_le
  simp only [decide_eq_false_iff_not]
  omega

@[simp] theorem dpRegWord_rm (c : Cond) (op : DpOp) (f : Bool) (rn rd : Reg) (shamt : Fin 32) (kind : ShiftKind) (rm : Reg) :
    (dpRegWord c op f rn rd shamt kind rm).extractLsb' 0 4 = bits4 rm := by
  have := f.toNat_le
  exact extract_eq (by rw [toNat_dpRegWord]; simp; omega)

@[simp] theorem branchWord_cond (c : Cond) (l : Bool) (imm24 : BitVec 24) :
    (branchWord c l imm24).extractLsb' 28 4 = c.code := by
  have := l.toNat_le
  exact extract_eq (by rw [toNat_branchWord]; simp; omega)

@[simp] theorem branchWord_cls (c : Cond) (l : Bool) (imm24 : BitVec 24) :
    (branchWord c l imm24).extractLsb' 25 3 = 0b101#3 := by
  have := l.toNat_le
  exact extract_eq (by rw [toNat_branchWord]; simp; omega)

@[simp] theorem branchWord_l (c : Cond) (l : Bool) (imm24 : BitVec 24) :
    (branchWord c l imm24)[24] = l := by
  rw [← BitVec.getLsbD_eq_getElem, getLsbD_eq_div, toNat_branchWord]
  cases l <;> simp <;> omega

@[simp] theorem branchWord_imm24 (c : Cond) (l : Bool) (imm24 : BitVec 24) :
    (branchWord c l imm24).extractLsb' 0 24 = imm24 := by
  have := l.toNat_le
  exact extract_eq (by rw [toNat_branchWord]; simp; omega)

@[simp] theorem transferWord_cond (c : Cond) (l : Bool) (rn rd : Reg) :
    (transferWord c l rn rd).extractLsb' 28 4 = c.code := by
  have := l.toNat_le
  exact extract_eq (by rw [toNat_transferWord]; simp; omega)

@[simp] theorem transferWord_cls (c : Cond) (l : Bool) (rn rd : Reg) :
    (transferWord c l rn rd).extractLsb' 25 3 = 0b010#3 := by
  have := l.toNat_le
  exact extract_eq (by rw [toNat_transferWord]; simp; omega)

@[simp] theorem transferWord_form (c : Cond) (l : Bool) (rn rd : Reg) :
    (transferWord c l rn rd).extractLsb' 21 5 = 0b01100#5 := by
  have := l.toNat_le
  exact extract_eq (by rw [toNat_transferWord]; simp; omega)

@[simp] theorem transferWord_l (c : Cond) (l : Bool) (rn rd : Reg) :
    (transferWord c l rn rd)[20] = l := by
  rw [← BitVec.getLsbD_eq_getElem, getLsbD_eq_div, toNat_transferWord]
  cases l <;> simp <;> omega

@[simp] theorem transferWord_rn (c : Cond) (l : Bool) (rn rd : Reg) :
    (transferWord c l rn rd).extractLsb' 16 4 = bits4 rn := by
  have := l.toNat_le
  exact extract_eq (by rw [toNat_transferWord]; simp; omega)

@[simp] theorem transferWord_rd (c : Cond) (l : Bool) (rn rd : Reg) :
    (transferWord c l rn rd).extractLsb' 12 4 = bits4 rd := by
  have := l.toNat_le
  exact extract_eq (by rw [toNat_transferWord]; simp; omega)

@[simp] theorem transferWord_low (c : Cond) (l : Bool) (rn rd : Reg) :
    (transferWord c l rn rd).extractLsb' 0 12 = 0#12 := by
  have := l.toNat_le
  exact extract_eq (by rw [toNat_transferWord]; simp; omega)

/-! ## Decoding an encoded word: one lemma per format -/

theorem decodeWord_dpImmWord (c : Cond) (op : DpOp) (f : Bool) (rn rd : Reg) (rot : Fin 16) (imm8 : Byte) :
    decodeWord (dpImmWord c op f rn rd rot imm8) = decodeDp c ⟨op, f, rn, rd, .imm rot imm8⟩ := by
  simp [decodeWord, decodeClass, dpFields, immField]

theorem decodeWord_dpRegWord (c : Cond) (op : DpOp) (f : Bool) (rn rd : Reg) (shamt : Fin 32) (kind : ShiftKind) (rm : Reg) :
    decodeWord (dpRegWord c op f rn rd shamt kind rm) = decodeDp c ⟨op, f, rn, rd, .shifted rm kind shamt⟩ := by
  simp [decodeWord, decodeClass, dpFields, shiftedField]

theorem decodeWord_branchWord (c : Cond) (l : Bool) (imm24 : BitVec 24) :
    decodeWord (branchWord c l imm24) = .ok (if l then .bl c imm24 else .b c imm24) := by
  simp [decodeWord, decodeClass, decodeBranch]

theorem decodeWord_transferWord (c : Cond) (l : Bool) (rn rd : Reg) :
    decodeWord (transferWord c l rn rd) = .ok (if l then .ldr c rn rd else .str c rn rd) := by
  cases l <;> simp [decodeWord, decodeClass, decodeTransfer]

/-! ## A word is the encoding of its fields: one lemma per format -/

theorem toNat_bit (w : Word) (k : Nat) : (w.getLsbD k).toNat = w.toNat / 2 ^ k % 2 := by
  rw [getLsbD_eq_div]
  rcases Nat.mod_two_eq_zero_or_one (w.toNat / 2 ^ k) with h | h <;> rw [h] <;> rfl

theorem toNat_cond {w : Word} {c : Cond} (h : Cond.ofCode (w.extractLsb' 28 4) = some c) :
    c.code.toNat = w.toNat / 2 ^ 28 % 2 ^ 4 := by rw [code_of_condOfCode _ _ h, toNat_extract]

theorem dpImmWord_of_fields {w : Word} {c : Cond} (hc : Cond.ofCode (w.extractLsb' 28 4) = some c)
    (hw : w.extractLsb' 25 3 = 0b001#3) :
    dpImmWord c (DpOp.ofCode (w.extractLsb' 21 4)) (w.getLsbD 20) (index4 (w.extractLsb' 16 4))
      (index4 (w.extractLsb' 12 4)) (index4 (w.extractLsb' 8 4)) (w.extractLsb' 0 8) = w := by
  have h0 := congrArg BitVec.toNat hw
  rw [toNat_extract] at h0
  have hlt := w.isLt
  apply BitVec.eq_of_toNat_eq
  rw [toNat_dpImmWord, toNat_cond hc, code_dpOpOfCode, toNat_bit]
  simp only [index4, toNat_extract]
  simp at h0
  omega

theorem dpRegWord_of_fields {w : Word} {c : Cond} (hc : Cond.ofCode (w.extractLsb' 28 4) = some c)
    (hw : w.extractLsb' 25 3 = 0b000#3) (hb : w.getLsbD 4 = false) :
    dpRegWord c (DpOp.ofCode (w.extractLsb' 21 4)) (w.getLsbD 20) (index4 (w.extractLsb' 16 4))
      (index4 (w.extractLsb' 12 4)) (index5 (w.extractLsb' 7 5)) (ShiftKind.ofCode (w.extractLsb' 5 2))
      (index4 (w.extractLsb' 0 4)) = w := by
  have h0 := congrArg BitVec.toNat hw
  rw [toNat_extract] at h0
  have h4 := toNat_bit w 4
  rw [hb] at h4
  have hlt := w.isLt
  apply BitVec.eq_of_toNat_eq
  rw [toNat_dpRegWord, toNat_cond hc, code_dpOpOfCode, code_shiftKindOfCode, toNat_bit]
  simp only [index4, index5, toNat_extract]
  simp at h0 h4
  omega

theorem branchWord_of_fields {w : Word} {c : Cond} (hc : Cond.ofCode (w.extractLsb' 28 4) = some c)
    (hw : w.extractLsb' 25 3 = 0b101#3) : branchWord c (w.getLsbD 24) (w.extractLsb' 0 24) = w := by
  have h0 := congrArg BitVec.toNat hw
  rw [toNat_extract] at h0
  have hlt := w.isLt
  apply BitVec.eq_of_toNat_eq
  rw [toNat_branchWord, toNat_cond hc, toNat_bit]
  simp only [toNat_extract]
  simp at h0
  omega

theorem transferWord_of_fields {w : Word} {c : Cond} (hc : Cond.ofCode (w.extractLsb' 28 4) = some c)
    (hw : w.extractLsb' 25 3 = 0b010#3) (hf : w.extractLsb' 21 5 = 0b01100#5) (hz : w.extractLsb' 0 12 = 0#12) :
    transferWord c (w.getLsbD 20) (index4 (w.extractLsb' 16 4)) (index4 (w.extractLsb' 12 4)) = w := by
  have h0 := congrArg BitVec.toNat hw
  have h1 := congrArg BitVec.toNat hf
  have h2 := congrArg BitVec.toNat hz
  rw [toNat_extract] at h0 h1 h2
  have hlt := w.isLt
  apply BitVec.eq_of_toNat_eq
  rw [toNat_transferWord, toNat_cond hc, toNat_bit]
  simp only [index4, toNat_extract]
  simp at h0 h1 h2
  omega

end Sys2Proof
end

