-- ==== Sys2Proof/Laws/Flags.lean ====
section
/-! SUPPORT. What the adder gives on two words and on a complement, and what the flag updater can do. -/

namespace Sys2Proof.Machine

/-! ## The adder (42_data_processing.md R81, R82) -/

/-- The result is the wrapped sum with the carry in. -/
theorem addWithCarry_result (a b : Word) (c : Bool) :
    (addWithCarry a b c).result = a + b + (if c then 1#32 else 0#32) := by
  apply BitVec.eq_of_toNat_eq
  cases c <;> simp [addWithCarry]

/-- With the second operand complemented the result is the difference, less one without a carry in. -/
theorem addWithCarry_not_result (a b : Word) (c : Bool) :
    (addWithCarry a (~~~b) c).result = a - b - (if c then 0#32 else 1#32) := by
  apply BitVec.eq_of_toNat_eq
  have := a.isLt
  have := b.isLt
  cases c <;> simp [addWithCarry, BitVec.toNat_not, BitVec.toNat_sub] <;> omega

/-- With the second operand complemented the carry out says that the exact difference is not negative. -/
theorem addWithCarry_not_carry (a b : Word) (c : Bool) : (addWithCarry a (~~~b) c).carryOut =
    decide (0 ≤ (a.toNat : Int) - b.toNat - (1 - (c.toNat : Int))) := by
  have := a.isLt
  have := b.isLt
  have := c.toNat_le
  simp only [addWithCarry, BitVec.toNat_not, decide_eq_decide]
  omega

theorem toInt_not (b : Word) : (~~~b).toInt = -b.toInt - 1 := by
  have := b.isLt
  simp only [BitVec.toInt_eq_toNat_cond, BitVec.toNat_not]
  split <;> split <;> omega

/-- With the second operand complemented the overflow is that of the exact signed difference. -/
theorem addWithCarry_not_overflow (a b : Word) (c : Bool) : (addWithCarry a (~~~b) c).overflowOut =
    decide (a.toInt - b.toInt - (1 - (c.toNat : Int)) < -2 ^ 31 ∨
      2 ^ 31 - 1 < a.toInt - b.toInt - (1 - (c.toNat : Int))) := by
  simp only [addWithCarry, toInt_not, decide_eq_decide]
  omega

/-! ## The flag updater (42_data_processing.md R85) -/

@[simp] theorem reg_flagUpdate (f : Bool) (g : AluGroup) (o : AluOut) (s : State) (r : Reg) :
    (flagUpdate f g o s).reg r = s.reg r := by cases f <;> rfl
@[simp] theorem spsr_flagUpdate (f : Bool) (g : AluGroup) (o : AluOut) (s : State) :
    (flagUpdate f g o s).spsr = s.spsr := by cases f <;> rfl
@[simp] theorem mem_flagUpdate (f : Bool) (g : AluGroup) (o : AluOut) (s : State) :
    (flagUpdate f g o s).mem = s.mem := by cases f <;> rfl
@[simp] theorem memSize_flagUpdate (f : Bool) (g : AluGroup) (o : AluOut) (s : State) :
    (flagUpdate f g o s).memSize = s.memSize := by cases f <;> rfl

/-- Without S the flag updater does nothing. -/
@[simp] theorem flagUpdate_false (g : AluGroup) (o : AluOut) (s : State) : flagUpdate false g o s = s := rfl

/-- The status bits below the flags are kept by the flag updater. -/
theorem cpsrLow_flagUpdate (f : Bool) (g : AluGroup) (o : AluOut) (s : State) (k : Nat) (h : k < 28) :
    (flagUpdate f g o s).cpsr.getLsbD k = s.cpsr.getLsbD k := by
  cases f
  · rfl
  · exact cpsrLow_setNzcv _ _ _ _ _ _ h

end Sys2Proof.Machine
end

