-- ==== Sys2Proof/Laws/Operands.lean ====
section
/-! SUPPORT. What the rotation of the shifter does to each bit. -/

namespace Sys2Proof.Machine

/-- Bit k of a rotation by n is bit (k + n) mod 32 (00_scope.md R8). -/
theorem rotateRight_getLsbD (v : Word) (n k : Nat) (hn : n < 32) (hk : k < 32) :
    (rotateRight v n).getLsbD k = v.getLsbD ((k + n) % 32) := by
  simp only [rotateRight, BitVec.getLsbD_or, BitVec.getLsbD_ushiftRight, BitVec.getLsbD_shiftLeft]
  by_cases h : k + n < 32
  · have : k < 32 - n := by omega
    rw [Nat.mod_eq_of_lt h, Nat.add_comm k n]
    simp [this]
  · have h2 : ¬ k < 32 - n := by omega
    have h3 : (k + n) % 32 = k - (32 - n) := by omega
    rw [BitVec.getLsbD_of_ge v (n + k) (by omega)]
    simp [h2, h3, hk]

end Sys2Proof.Machine
end

