-- ==== Sys2Proof/Laws/PerInstr.lean ====
section
/-! SUPPORT. Statements for all instructions, one lemma per constructor. `CondField`: the condition of an
instruction is bits 31:28 of its word (30_encoding.md R46), so the condition a cycle tests on the word is the
one the meaning tests on the instruction (log entry 7). -/

namespace Sys2Proof.Laws

/-- The condition field of the encoded word is the instruction's condition. -/
def CondField.Statement (i : Instr) : Prop := (encode i).extractLsb' 28 4 = i.cond.code

theorem CondField.andImm (c : Cond) (f : Bool) (rn rd : Reg) (rot : Fin 16) (imm8 : Byte) :
    CondField.Statement (.andImm c f rn rd rot imm8) := dpImmWord_cond ..
theorem CondField.andReg (c : Cond) (f : Bool) (rn rd : Reg) (shamt : Fin 32) (kind : ShiftKind) (rm : Reg) :
    CondField.Statement (.andReg c f rn rd shamt kind rm) := dpRegWord_cond ..
theorem CondField.eorImm (c : Cond) (f : Bool) (rn rd : Reg) (rot : Fin 16) (imm8 : Byte) :
    CondField.Statement (.eorImm c f rn rd rot imm8) := dpImmWord_cond ..
theorem CondField.eorReg (c : Cond) (f : Bool) (rn rd : Reg) (shamt : Fin 32) (kind : ShiftKind) (rm : Reg) :
    CondField.Statement (.eorReg c f rn rd shamt kind rm) := dpRegWord_cond ..
theorem CondField.subImm (c : Cond) (f : Bool) (rn rd : Reg) (rot : Fin 16) (imm8 : Byte) :
    CondField.Statement (.subImm c f rn rd rot imm8) := dpImmWord_cond ..
theorem CondField.subReg (c : Cond) (f : Bool) (rn rd : Reg) (shamt : Fin 32) (kind : ShiftKind) (rm : Reg) :
    CondField.Statement (.subReg c f rn rd shamt kind rm) := dpRegWord_cond ..
theorem CondField.rsbImm (c : Cond) (f : Bool) (rn rd : Reg) (rot : Fin 16) (imm8 : Byte) :
    CondField.Statement (.rsbImm c f rn rd rot imm8) := dpImmWord_cond ..
theorem CondField.rsbReg (c : Cond) (f : Bool) (rn rd : Reg) (shamt : Fin 32) (kind : ShiftKind) (rm : Reg) :
    CondField.Statement (.rsbReg c f rn rd shamt kind rm) := dpRegWord_cond ..
theorem CondField.addImm (c : Cond) (f : Bool) (rn rd : Reg) (rot : Fin 16) (imm8 : Byte) :
    CondField.Statement (.addImm c f rn rd rot imm8) := dpImmWord_cond ..
theorem CondField.addReg (c : Cond) (f : Bool) (rn rd : Reg) (shamt : Fin 32) (kind : ShiftKind) (rm : Reg) :
    CondField.Statement (.addReg c f rn rd shamt kind rm) := dpRegWord_cond ..
theorem CondField.adcImm (c : Cond) (f : Bool) (rn rd : Reg) (rot : Fin 16) (imm8 : Byte) :
    CondField.Statement (.adcImm c f rn rd rot imm8) := dpImmWord_cond ..
theorem CondField.adcReg (c : Cond) (f : Bool) (rn rd : Reg) (shamt : Fin 32) (kind : ShiftKind) (rm : Reg) :
    CondField.Statement (.adcReg c f rn rd shamt kind rm) := dpRegWord_cond ..
theorem CondField.sbcImm (c : Cond) (f : Bool) (rn rd : Reg) (rot : Fin 16) (imm8 : Byte) :
    CondField.Statement (.sbcImm c f rn rd rot imm8) := dpImmWord_cond ..
theorem CondField.sbcReg (c : Cond) (f : Bool) (rn rd : Reg) (shamt : Fin 32) (kind : ShiftKind) (rm : Reg) :
    CondField.Statement (.sbcReg c f rn rd shamt kind rm) := dpRegWord_cond ..
theorem CondField.rscImm (c : Cond) (f : Bool) (rn rd : Reg) (rot : Fin 16) (imm8 : Byte) :
    CondField.Statement (.rscImm c f rn rd rot imm8) := dpImmWord_cond ..
theorem CondField.rscReg (c : Cond) (f : Bool) (rn rd : Reg) (shamt : Fin 32) (kind : ShiftKind) (rm : Reg) :
    CondField.Statement (.rscReg c f rn rd shamt kind rm) := dpRegWord_cond ..
theorem CondField.tstImm (c : Cond) (rn : Reg) (rot : Fin 16) (imm8 : Byte) :
    CondField.Statement (.tstImm c rn rot imm8) := dpImmWord_cond ..
theorem CondField.tstReg (c : Cond) (rn : Reg) (shamt : Fin 32) (kind : ShiftKind) (rm : Reg) :
    CondField.Statement (.tstReg c rn shamt kind rm) := dpRegWord_cond ..
theorem CondField.teqImm (c : Cond) (rn : Reg) (rot : Fin 16) (imm8 : Byte) :
    CondField.Statement (.teqImm c rn rot imm8) := dpImmWord_cond ..
theorem CondField.teqReg (c : Cond) (rn : Reg) (shamt : Fin 32) (kind : ShiftKind) (rm : Reg) :
    CondField.Statement (.teqReg c rn shamt kind rm) := dpRegWord_cond ..
theorem CondField.cmpImm (c : Cond) (rn : Reg) (rot : Fin 16) (imm8 : Byte) :
    CondField.Statement (.cmpImm c rn rot imm8) := dpImmWord_cond ..
theorem CondField.cmpReg (c : Cond) (rn : Reg) (shamt : Fin 32) (kind : ShiftKind) (rm : Reg) :
    CondField.Statement (.cmpReg c rn shamt kind rm) := dpRegWord_cond ..
theorem CondField.cmnImm (c : Cond) (rn : Reg) (rot : Fin 16) (imm8 : Byte) :
    CondField.Statement (.cmnImm c rn rot imm8) := dpImmWord_cond ..
theorem CondField.cmnReg (c : Cond) (rn : Reg) (shamt : Fin 32) (kind : ShiftKind) (rm : Reg) :
    CondField.Statement (.cmnReg c rn shamt kind rm) := dpRegWord_cond ..
theorem CondField.orrImm (c : Cond) (f : Bool) (rn rd : Reg) (rot : Fin 16) (imm8 : Byte) :
    CondField.Statement (.orrImm c f rn rd rot imm8) := dpImmWord_cond ..
theorem CondField.orrReg (c : Cond) (f : Bool) (rn rd : Reg) (shamt : Fin 32) (kind : ShiftKind) (rm : Reg) :
    CondField.Statement (.orrReg c f rn rd shamt kind rm) := dpRegWord_cond ..
theorem CondField.movImm (c : Cond) (f : Bool) (rd : Reg) (rot : Fin 16) (imm8 : Byte) :
    CondField.Statement (.movImm c f rd rot imm8) := dpImmWord_cond ..
theorem CondField.movReg (c : Cond) (f : Bool) (rd : Reg) (shamt : Fin 32) (kind : ShiftKind) (rm : Reg) :
    CondField.Statement (.movReg c f rd shamt kind rm) := dpRegWord_cond ..
theorem CondField.bicImm (c : Cond) (f : Bool) (rn rd : Reg) (rot : Fin 16) (imm8 : Byte) :
    CondField.Statement (.bicImm c f rn rd rot imm8) := dpImmWord_cond ..
theorem CondField.bicReg (c : Cond) (f : Bool) (rn rd : Reg) (shamt : Fin 32) (kind : ShiftKind) (rm : Reg) :
    CondField.Statement (.bicReg c f rn rd shamt kind rm) := dpRegWord_cond ..
theorem CondField.mvnImm (c : Cond) (f : Bool) (rd : Reg) (rot : Fin 16) (imm8 : Byte) :
    CondField.Statement (.mvnImm c f rd rot imm8) := dpImmWord_cond ..
theorem CondField.mvnReg (c : Cond) (f : Bool) (rd : Reg) (shamt : Fin 32) (kind : ShiftKind) (rm : Reg) :
    CondField.Statement (.mvnReg c f rd shamt kind rm) := dpRegWord_cond ..
theorem CondField.b (c : Cond) (imm24 : BitVec 24) :
    CondField.Statement (.b c imm24) := branchWord_cond ..
theorem CondField.bl (c : Cond) (imm24 : BitVec 24) :
    CondField.Statement (.bl c imm24) := branchWord_cond ..
theorem CondField.ldr (c : Cond) (rn rd : Reg) :
    CondField.Statement (.ldr c rn rd) := transferWord_cond ..
theorem CondField.str (c : Cond) (rn rd : Reg) :
    CondField.Statement (.str c rn rd) := transferWord_cond ..

end Sys2Proof.Laws
end

