-- ==== Sys2Proof/Tests/Slice0.lean ====
section
/-! SUPPORT. The model's own tests, and a witness of the hypotheses of each statement. Every expected value is the
spec's: a word written out field by field from 30_encoding.md, a vector of 95_test_vectors.md, or an example or a
corner case of an instruction's own rule. -/

namespace Sys2Proof.Tests

open Sys2Proof.Machine
open Sys2Proof.Claims

/-! ## Helpers -/

/-- Zeroed state in ARM mode at `addr`, with these flags, registers and data words, and the word `w` at `addr`. -/
def testState (addr : Word) (memSize : Nat) (nzcv : BitVec 4) (regs : List (Reg × Word)) (data : List (Nat × Word))
    (w : Word) : State :=
  let s := regs.foldl (fun s p => s.setReg p.1 p.2) (construct [] memSize addr .arm)
  let mem := data.foldl (fun m p => m.writeWord p.1 p.2) s.mem
  { s with cpsr := nzcv ++ 0#28, mem := mem }.placeWord w

/-- The same in reduced mode. -/
def reducedState (addr : Word) (memSize : Nat) (data : List (Nat × Word)) : State :=
  { construct [] memSize addr .reduced with mem := data.foldl (fun m p => m.writeWord p.1 p.2) [] }

/-- The outcome is a next state with this property. -/
def nextIs (r : Result) (p : State → Bool) : Bool :=
  match r with
  | .next t => p t
  | _ => false

/-- The outcome is this fault. -/
def faultIs (r : Result) (e : Fault) : Bool :=
  match r with
  | .fault f => f == e
  | _ => false

/-- The state of a next outcome, else the given one. -/
def after (r : Result) (s : State) : State :=
  match r with
  | .next t => t
  | _ => s

/-- N, Z, C and V as four bits. -/
def nzcvOf (s : State) : BitVec 4 := s.cpsr.extractLsb' 28 4

/-! ## Well-formedness: Rd = 15 with S = 1 is no instruction (30_encoding.md R53) -/

theorem test_wf_refuses_flagSettingPcWrite :
    [Instr.andImm .al true 1 15 0 0#8, .andReg .al true 1 15 0 .lsl 2, .eorImm .al true 1 15 0 0#8,
      .eorReg .al true 1 15 0 .lsl 2, .subImm .al true 14 15 0 4#8, .subReg .al true 1 15 0 .lsl 2,
      .rsbImm .al true 1 15 0 0#8, .rsbReg .al true 1 15 0 .lsl 2, .addImm .al true 1 15 0 0#8,
      .addReg .al true 1 15 0 .lsl 2, .adcImm .al true 1 15 0 0#8, .adcReg .al true 1 15 0 .lsl 2,
      .sbcImm .al true 1 15 0 0#8, .sbcReg .al true 1 15 0 .lsl 2, .rscImm .al true 1 15 0 0#8,
      .rscReg .al true 1 15 0 .lsl 2, .orrImm .al true 1 15 0 0#8, .orrReg .al true 1 15 0 .lsl 2,
      .movImm .al true 15 0 0#8, .movReg .al true 15 0 .lsl 14, .bicImm .al true 1 15 0 0#8,
      .bicReg .al true 1 15 0 .lsl 2, .mvnImm .al true 15 0 0#8, .mvnReg .al true 15 0 .lsl 2].all
      (fun i => !i.wf) = true := by decide
theorem test_wf_accepts_pcWriteWithoutFlags : (Instr.movReg .al false 15 0 .lsl 14).wf = true := by decide
theorem test_wf_accepts_flagsIntoLinkRegister : (Instr.movReg .al true 14 0 .lsl 15).wf = true := by decide

/-! ## Decoding: a word for every constructor, field by field as 30_encoding.md lays it out
(cond, class, opcode, S, Rn, Rd, then rot and imm8, or shamt, type, 0 and Rm) -/

theorem test_decode_and :
    decodeWord 0b1110_001_0000_0_0011_0010_0101_10010011#32 = .ok (.andImm .al false 3 2 5 147#8) ∧
    decodeWord 0b0011_000_0000_1_0110_1001_10001_00_0_1100#32 = .ok (.andReg .cc true 6 9 17 .lsl 12) := by decide

theorem test_decode_eor :
    decodeWord 0b0011_001_0001_1_1000_1001_1000_10111000#32 = .ok (.eorImm .cc true 8 9 8 184#8) ∧
    decodeWord 0b1010_000_0001_0_1001_1110_11100_01_0_0101#32 = .ok (.eorReg .ge false 9 14 28 .lsr 5) := by decide

theorem test_decode_sub :
    decodeWord 0b0111_001_0010_0_1101_0000_1011_11011101#32 = .ok (.subImm .vc false 13 0 11 221#8) ∧
    decodeWord 0b0010_000_0010_1_1100_0011_00111_10_0_1110#32 = .ok (.subReg .cs true 12 3 7 .asr 14) := by decide

theorem test_decode_rsb :
    decodeWord 0b1011_001_0011_1_0010_0111_1110_00000010#32 = .ok (.rsbImm .lt true 2 7 14 2#8) ∧
    decodeWord 0b1001_000_0011_0_1111_1000_10010_11_0_0111#32 = .ok (.rsbReg .ls false 15 8 18 .ror 7) := by decide

theorem test_decode_add :
    decodeWord 0b0000_001_0100_0_0111_1110_0001_00100111#32 = .ok (.addImm .eq false 7 14 1 39#8) ∧
    decodeWord 0b0001_000_0100_1_0010_1101_11101_00_0_0000#32 = .ok (.addReg .ne true 2 13 29 .lsl 0) := by decide

theorem test_decode_adc :
    decodeWord 0b0100_001_0101_1_1100_0101_0100_01001100#32 = .ok (.adcImm .mi true 12 5 4 76#8) ∧
    decodeWord 0b1000_000_0101_0_0101_0010_01000_01_0_1001#32 = .ok (.adcReg .hi false 5 2 8 .lsr 9) := by decide

theorem test_decode_sbc :
    decodeWord 0b1000_001_0110_0_0001_1100_0111_01110001#32 = .ok (.sbcImm .hi false 1 12 7 113#8) ∧
    decodeWord 0b0000_000_0110_1_1000_0111_10011_10_0_0010#32 = .ok (.sbcReg .eq true 8 7 19 .asr 2) := by decide

theorem test_decode_rsc :
    decodeWord 0b1100_001_0111_1_0110_0011_1010_10010110#32 = .ok (.rscImm .gt true 6 3 10 150#8) ∧
    decodeWord 0b0111_000_0111_0_1011_1100_11110_11_0_1011#32 = .ok (.rscReg .vc false 11 12 30 .ror 11) := by decide

theorem test_decode_tst :
    decodeWord 0b0001_001_1000_1_1011_0000_1101_10111011#32 = .ok (.tstImm .ne 11 13 187#8) ∧
    decodeWord 0b1110_000_1000_1_1110_0000_01001_00_0_0100#32 = .ok (.tstReg .al 14 9 .lsl 4) := by decide

theorem test_decode_teq :
    decodeWord 0b0101_001_1001_1_0000_0000_0000_11100000#32 = .ok (.teqImm .pl 0 0 224#8) ∧
    decodeWord 0b0110_000_1001_1_0001_0000_10100_01_0_1101#32 = .ok (.teqReg .vs 1 20 .lsr 13) := by decide

theorem test_decode_cmp :
    decodeWord 0b1001_001_1010_1_0101_0000_0011_00000101#32 = .ok (.cmpImm .ls 5 3 5#8) ∧
    decodeWord 0b1101_000_1010_1_0100_0000_11111_10_0_0110#32 = .ok (.cmpReg .le 4 31 .asr 6) := by decide

theorem test_decode_cmn :
    decodeWord 0b1101_001_1011_1_1010_0000_0110_00101010#32 = .ok (.cmnImm .le 10 6 42#8) ∧
    decodeWord 0b0101_000_1011_1_0111_0000_01010_11_0_1111#32 = .ok (.cmnReg .pl 7 10 .ror 15) := by decide

theorem test_decode_orr :
    decodeWord 0b0010_001_1100_0_1111_0110_1001_01001111#32 = .ok (.orrImm .cs false 15 6 9 79#8) ∧
    decodeWord 0b1100_000_1100_1_1010_0101_10101_00_0_1000#32 = .ok (.orrReg .gt true 10 5 21 .lsl 8) := by decide

theorem test_decode_mov :
    decodeWord 0b0110_001_1101_1_0000_1101_1100_01110100#32 = .ok (.movImm .vs true 13 12 116#8) ∧
    decodeWord 0b0100_000_1101_0_0000_1010_00000_01_0_0001#32 = .ok (.movReg .mi false 10 0 .lsr 1) := by decide

theorem test_decode_bic :
    decodeWord 0b1010_001_1110_0_1001_0100_1111_10011001#32 = .ok (.bicImm .ge false 9 4 15 153#8) ∧
    decodeWord 0b1011_000_1110_1_0000_1101_01011_10_0_1010#32 = .ok (.bicReg .lt true 0 13 11 .asr 10) := by decide

theorem test_decode_mvn :
    decodeWord 0b1110_001_1111_1_0000_1011_0010_10111110#32 = .ok (.mvnImm .al true 11 2 190#8) ∧
    decodeWord 0b0011_000_1111_0_0000_0100_10110_11_0_0011#32 = .ok (.mvnReg .cc false 4 22 .ror 3) := by decide

/-- Formats BRANCH (cond, 101, L, imm24) and LS_WORD (cond, 010, 1, 1, 0, 0, L, Rn, Rd, twelve zeros). -/
theorem test_decode_branch_and_transfer :
    decodeWord 0b0001_101_0_101000000000000000000011#32 = .ok (.b .ne 0xA00003#24) ∧
    decodeWord 0b0000_101_1_000000000000000000000100#32 = .ok (.bl .eq 4#24) ∧
    decodeWord 0b1011_010_1100_1_1001_0110_000000000000#32 = .ok (.ldr .lt 9 6) ∧
    decodeWord 0b1000_010_1100_0_0011_1111_000000000000#32 = .ok (.str .hi 3 15) := by decide

/-- The words that 95_test_vectors.md 2.4 says are refused, each run at address 0 with r1 = 0x20, r14 = 0x40. -/
theorem test_refused_words :
    [0xE1B0F00E#32, 0xE3A10005#32, 0xE311F000#32, 0xE12FFF1E#32, 0xE10F0000#32, 0xE129F000#32, 0xE320F000#32,
      0xE0000291#32, 0xE1000090#32, 0xE1D000B0#32, 0xE1A00110#32, 0xE5D10000#32, 0xE5910004#32, 0xE5110000#32,
      0xE4910000#32, 0xE5B10000#32, 0xE7910002#32, 0xE6000010#32, 0xE8BD0001#32, 0xEE000000#32, 0xEF000000#32,
      0xF3A00005#32].all
      (fun w => faultIs (step (testState 0#32 0x80 0#4 [(1, 0x20#32), (14, 0x40#32)] [] w))
        (.unsupportedInstruction 0#32 w)) = true := by decide

/-- The decoder names what it refused (log entry 13). -/
theorem test_decode_errors :
    decodeWord 0xE1B0F00E#32 = .error .flagSettingPcWrite ∧ decodeWord 0xE3A10005#32 = .error .nonZeroField ∧
    decodeWord 0xE10F0000#32 = .error .testWithoutFlags ∧ decodeWord 0xE0000291#32 = .error .multiplySwapHalfword ∧
    decodeWord 0xE1A00110#32 = .error .registerShift ∧ decodeWord 0xE5D10000#32 = .error .transferForm ∧
    decodeWord 0xE7910002#32 = .error .registerOffset ∧ decodeWord 0xE8BD0001#32 = .error .blockTransfer ∧
    decodeWord 0xED900000#32 = .error .coprocessorTransfer ∧ decodeWord 0xEF000000#32 = .error .coprocessorOrSwi ∧
    decodeWord 0xF3A00005#32 = .error .reservedCondition := by decide

/-- Bytes are read little-endian, and three bytes are no instruction. -/
theorem test_decode_bytes :
    decodeBytes [0x05#8, 0x00#8, 0xA0#8, 0xE3#8, 0xFF#8] = .ok (.movImm .al false 0 0 5#8, [0xFF#8]) ∧
    decodeBytes [0x05#8, 0x00#8, 0xA0#8] = .error .truncated := by decide

theorem test_decodeTableWord :
    decodeTableWord 32 0xE3A00005 = some (.movImm .al false 0 0 5#8) ∧ decodeTableWord 32 0xEF000000 = none := by
  decide

/-! ## The units -/

/-- The truth table of 95_test_vectors.md 2.1: row NZCV, and from the left the codes 0000 to 1110. -/
theorem test_condition_table :
    ((List.range 16).zip
      [0b010101010110101#15, 0b010101100101011#15, 0b011001011010101#15, 0b011001101001011#15, 0b100101010110011#15,
        0b100101100101011#15, 0b101001010110011#15, 0b101001100101011#15, 0b010110010101011#15,
        0b010110100110101#15, 0b011010011001011#15, 0b011010101010101#15, 0b100110010101011#15,
        0b100110100110011#15, 0b101010010101011#15, 0b101010100110011#15]).all
      (fun row => (List.range 15).all fun code =>
        evaluate (BitVec.ofNat 4 code) (row.1.testBit 3) (row.1.testBit 2) (row.1.testBit 1) (row.1.testBit 0) ==
          if row.2.getLsbD (14 - code) then .pass else .fail) = true := by decide

/-- The worked example of 40_condition.md: on the flags 0110 of a state, HI fails, and LS and GE pass. -/
theorem test_condition_reads_the_flags_of_the_state :
    let s := testState 0#32 0x40 0b0110#4 [] [] 0xE3A00005#32
    s.passes .hi = false ∧ s.passes .ls = true ∧ s.passes .ge = true ∧ s.evaluates 0x83A00005#32 = .fail ∧
    s.evaluates 0x93A00005#32 = .pass ∧ s.evaluates 0xA3A00005#32 = .pass := by decide

/-- 95_test_vectors.md 2.2, the LSL rows. -/
theorem test_shift_lsl :
    shift 0x80000001#32 .lsl 0 false = ⟨0x80000001#32, false⟩ ∧
    shift 0x80000001#32 .lsl 0 true = ⟨0x80000001#32, true⟩ ∧
    shift 0x80000001#32 .lsl 1 false = ⟨0x00000002#32, true⟩ ∧
    shift 0x80000001#32 .lsl 31 false = ⟨0x80000000#32, false⟩ ∧
    shift 0x7FFFFFFE#32 .lsl 0 false = ⟨0x7FFFFFFE#32, false⟩ ∧
    shift 0x7FFFFFFE#32 .lsl 0 true = ⟨0x7FFFFFFE#32, true⟩ ∧
    shift 0x7FFFFFFE#32 .lsl 1 false = ⟨0xFFFFFFFC#32, false⟩ ∧
    shift 0x7FFFFFFE#32 .lsl 31 false = ⟨0x00000000#32, true⟩ := by decide

/-- 95_test_vectors.md 2.2, the LSR rows. -/
theorem test_shift_lsr :
    shift 0x80000001#32 .lsr 0 false = ⟨0x00000000#32, true⟩ ∧
    shift 0x80000001#32 .lsr 0 true = ⟨0x00000000#32, true⟩ ∧
    shift 0x80000001#32 .lsr 1 false = ⟨0x40000000#32, true⟩ ∧
    shift 0x80000001#32 .lsr 31 false = ⟨0x00000001#32, false⟩ ∧
    shift 0x7FFFFFFE#32 .lsr 0 false = ⟨0x00000000#32, false⟩ ∧
    shift 0x7FFFFFFE#32 .lsr 0 true = ⟨0x00000000#32, false⟩ ∧
    shift 0x7FFFFFFE#32 .lsr 1 false = ⟨0x3FFFFFFF#32, false⟩ ∧
    shift 0x7FFFFFFE#32 .lsr 31 false = ⟨0x00000000#32, true⟩ := by decide

/-- 95_test_vectors.md 2.2, the ASR rows. -/
theorem test_shift_asr :
    shift 0x80000001#32 .asr 0 false = ⟨0xFFFFFFFF#32, true⟩ ∧
    shift 0x80000001#32 .asr 0 true = ⟨0xFFFFFFFF#32, true⟩ ∧
    shift 0x80000001#32 .asr 1 false = ⟨0xC0000000#32, true⟩ ∧
    shift 0x80000001#32 .asr 31 false = ⟨0xFFFFFFFF#32, false⟩ ∧
    shift 0x7FFFFFFE#32 .asr 0 false = ⟨0x00000000#32, false⟩ ∧
    shift 0x7FFFFFFE#32 .asr 0 true = ⟨0x00000000#32, false⟩ ∧
    shift 0x7FFFFFFE#32 .asr 1 false = ⟨0x3FFFFFFF#32, false⟩ ∧
    shift 0x7FFFFFFE#32 .asr 31 false = ⟨0x00000000#32, true⟩ := by decide

/-- 95_test_vectors.md 2.2, the ROR rows. -/
theorem test_shift_ror :
    shift 0x80000001#32 .ror 0 false = ⟨0x40000000#32, true⟩ ∧
    shift 0x80000001#32 .ror 0 true = ⟨0xC0000000#32, true⟩ ∧
    shift 0x80000001#32 .ror 1 false = ⟨0xC0000000#32, true⟩ ∧
    shift 0x80000001#32 .ror 31 false = ⟨0x00000003#32, false⟩ ∧
    shift 0x7FFFFFFE#32 .ror 0 false = ⟨0x3FFFFFFF#32, false⟩ ∧
    shift 0x7FFFFFFE#32 .ror 0 true = ⟨0xBFFFFFFF#32, false⟩ ∧
    shift 0x7FFFFFFE#32 .ror 1 false = ⟨0x3FFFFFFF#32, false⟩ ∧
    shift 0x7FFFFFFE#32 .ror 31 false = ⟨0xFFFFFFFC#32, true⟩ := by decide

/-- 95_test_vectors.md 2.2, the immediate operand. -/
theorem test_immediate_operand :
    immOperand 0 0x05#8 false = ⟨0x00000005#32, false⟩ ∧
    immOperand 0 0x05#8 true = ⟨0x00000005#32, true⟩ ∧
    immOperand 1 0x3F#8 false = ⟨0xC000000F#32, true⟩ ∧
    immOperand 1 0x02#8 false = ⟨0x80000000#32, true⟩ ∧
    immOperand 12 0x01#8 true = ⟨0x00000100#32, false⟩ ∧
    immOperand 15 0xFF#8 false = ⟨0x000003FC#32, false⟩ ∧
    immOperand 4 0xFF#8 false = ⟨0xFF000000#32, true⟩ := by decide

/-! ## Data processing, one step each: from the state with the flags NZCV, the registers and the word, the register
that is read after it, its value, and the flags -/

/-- The step retires; then register `r` holds `v`, the flags are `nzcv` and the PC is 4. -/
def dpStep (before : BitVec 4) (regs : List (Reg × Word)) (w : Word) (r : Reg) (v : Word) (nzcv : BitVec 4) : Bool :=
  nextIs (step (testState 0#32 0x40 before regs [] w)) fun t =>
    t.reg r == v && nzcvOf t == nzcv && t.pc == 4#32 && t.cpsr.extractLsb' 0 28 == 0#28

/-- R88, the operand of 95_test_vectors.md 2.2; and a row of 95_test_vectors.md 2.3. -/
theorem test_and : dpStep 0b0001#4 [(0, 0xFFFFFFFF#32)] 0xE210213F#32 2 0xC000000F#32 0b1011#4 = true ∧
    dpStep 0b0011#4 [(0, 0xFFFF0000#32), (1, 0x00FFFF00#32)] 0xE0102001#32 2 0x00FF0000#32 0b0011#4 = true := by decide

/-- R89 corner case; and a row of 95_test_vectors.md 2.3. -/
theorem test_eor : dpStep 0b0010#4 [(0, 5#32)] 0xE2302005#32 2 0#32 0b0110#4 = true ∧
    dpStep 0b0001#4 [(0, 0xFFFFFFFF#32), (1, 0xFFFFFFFF#32)] 0xE0302001#32 2 0x00000000#32 0b0101#4 = true := by decide

/-- R90 example; and a row of 95_test_vectors.md 2.3. -/
theorem test_sub : dpStep 0b0000#4 [(0, 0#32)] 0xE2501001#32 1 0xFFFFFFFF#32 0b1000#4 = true ∧
    dpStep 0b0000#4 [(0, 0x80000000#32), (1, 0x00000001#32)] 0xE0502001#32 2 0x7FFFFFFF#32 0b0011#4 = true := by decide

/-- R91 example; and a row of 95_test_vectors.md 2.3. -/
theorem test_rsb : dpStep 0b0000#4 [(0, 0x80000000#32)] 0xE2701000#32 1 0x80000000#32 0b1001#4 = true ∧
    dpStep 0b0000#4 [(0, 0x00000000#32), (1, 0x80000000#32)] 0xE0702001#32 2 0x80000000#32 0b1010#4 = true := by decide

/-- R92 corner case; and a row of 95_test_vectors.md 2.3. -/
theorem test_add : dpStep 0b0000#4 [(0, 0xFFFFFFFF#32)] 0xE2902001#32 2 0#32 0b0110#4 = true ∧
    dpStep 0b0000#4 [(0, 0x7FFFFFFF#32), (1, 0x7FFFFFFF#32)] 0xE0902001#32 2 0xFFFFFFFE#32 0b1001#4 = true := by decide

/-- R93 corner case; and a row of 95_test_vectors.md 2.3. -/
theorem test_adc : dpStep 0b0010#4 [(0, 0xFFFFFFFF#32)] 0xE2B02000#32 2 0#32 0b0110#4 = true ∧
    dpStep 0b0010#4 [(0, 0xFFFFFFFF#32), (1, 0xFFFFFFFF#32)] 0xE0B02001#32 2 0xFFFFFFFF#32 0b1010#4 = true := by decide

/-- R94 corner case; and a row of 95_test_vectors.md 2.3. -/
theorem test_sbc : dpStep 0b0000#4 [(0, 5#32)] 0xE2D02005#32 2 0xFFFFFFFF#32 0b1000#4 = true ∧
    dpStep 0b0000#4 [(0, 0x80000000#32), (1, 0x00000000#32)] 0xE0D02001#32 2 0x7FFFFFFF#32 0b0011#4 = true := by decide

/-- R95 example, with an immediate 3; and a row of 95_test_vectors.md 2.3. -/
theorem test_rsc : dpStep 0b0000#4 [(0, 1#32)] 0xE2F02003#32 2 1#32 0b0010#4 = true ∧
    dpStep 0b0010#4 [(0, 0x00000001#32), (1, 0x80000000#32)] 0xE0F02001#32 2 0x7FFFFFFF#32 0b0011#4 = true := by decide

/-- R96 example; and a row of 95_test_vectors.md 2.3. -/
theorem test_tst : dpStep 0b0000#4 [(0, 0x80000000#32)] 0xE3100102#32 0 0x80000000#32 0b1010#4 = true ∧
    dpStep 0b0001#4 [(0, 0x0000000F#32), (1, 0x000000F0#32)] 0xE1100001#32 0 0x0000000F#32 0b0101#4 = true := by decide

/-- R97 corner case; and a row of 95_test_vectors.md 2.3. -/
theorem test_teq : dpStep 0b0010#4 [(0, 5#32)] 0xE3300005#32 0 5#32 0b0110#4 = true ∧
    dpStep 0b0010#4 [(0, 0x80000000#32), (1, 0x00000000#32)] 0xE1300001#32 0 0x80000000#32 0b1010#4 = true := by decide

/-- 95_test_vectors.md S10; and a row of 95_test_vectors.md 2.3. -/
theorem test_cmp : dpStep 0b0000#4 [(1, 0#32)] 0xE3510000#32 1 0#32 0b0110#4 = true ∧
    dpStep 0b0000#4 [(0, 0x7FFFFFFF#32), (1, 0x80000000#32)] 0xE1500001#32 0 0x7FFFFFFF#32 0b1001#4 = true := by decide

/-- R99 example; and a row of 95_test_vectors.md 2.3. -/
theorem test_cmn : dpStep 0b0000#4 [(0, 0xFFFFFFFF#32)] 0xE3700001#32 0 0xFFFFFFFF#32 0b0110#4 = true ∧
    dpStep 0b0000#4 [(0, 0x80000000#32), (1, 0x80000000#32)] 0xE1700001#32 0 0x80000000#32 0b0111#4 = true := by decide

/-- R100, the operand of 95_test_vectors.md 2.2; and a row of 95_test_vectors.md 2.3. -/
theorem test_orr : dpStep 0b0000#4 [(0, 1#32)] 0xE3902102#32 2 0x80000001#32 0b1010#4 = true ∧
    dpStep 0b0010#4 [(0, 0x00000000#32), (1, 0x00000000#32)] 0xE1902001#32 2 0x00000000#32 0b0110#4 = true := by decide

/-- 95_test_vectors.md S9; and a row of 95_test_vectors.md 2.3. -/
theorem test_mov : dpStep 0b0000#4 [(0, 9#32)] 0xE3A00005#32 0 5#32 0b0000#4 = true ∧
    dpStep 0b0001#4 [(0, 0x00000007#32), (1, 0x80000000#32)] 0xE1B02001#32 2 0x80000000#32 0b1001#4 = true := by decide

/-- R102 example; and a row of 95_test_vectors.md 2.3. -/
theorem test_bic : dpStep 0b0011#4 [(0, 0xFF#32)] 0xE3D000FF#32 0 0#32 0b0111#4 = true ∧
    dpStep 0b0000#4 [(0, 0xFFFFFFFF#32), (1, 0x0000FFFF#32)] 0xE1D02001#32 2 0xFFFF0000#32 0b1000#4 = true := by decide

/-- R103 example; and a row of 95_test_vectors.md 2.3. -/
theorem test_mvn : dpStep 0b0101#4 [(0, 7#32)] 0xE3F00000#32 0 0xFFFFFFFF#32 0b1001#4 = true ∧
    dpStep 0b0011#4 [(0, 0x00000007#32), (1, 0xFFFFFFFF#32)] 0xE1F02001#32 2 0x00000000#32 0b0111#4 = true := by decide

/-- R88 and R100 examples: a shifted register, with its carry and without flags. -/
theorem test_shifted_operand :
    dpStep 0b0001#4 [(0, 0xFFFFFFFF#32), (1, 0x0000000F#32)] 0xE0102221#32 2 0#32 0b0111#4 = true ∧
    dpStep 0b0000#4 [(1, 0xFF#32), (2, 0xAB#32)] 0xE1813402#32 3 0x0000ABFF#32 0b0000#4 = true := by decide

/-- 95_test_vectors.md 2.4: MOV pc, lr jumps; and a failed condition skips even a word that would not decode. -/
theorem test_mov_pc_and_skip :
    nextIs (step (testState 0#32 0x80 0#4 [(14, 0x40#32)] [] 0xE1A0F00E#32)) (fun t => t.pc == 0x40#32) = true ∧
    nextIs (step (testState 0#32 0x80 0#4 [] [] 0x00000291#32))
      (fun t => t == (testState 0#32 0x80 0#4 [] [] 0x00000291#32).setPc 4#32) = true := by decide

/-! ## Branches (95_test_vectors.md 2.5) -/

theorem test_b :
    nextIs (step (testState 0x100#32 0x200 0#4 [] [] 0xEAFFFFFE#32)) (fun t => t.pc == 0xFC#32 && t.reg 14 == 0#32) =
      true ∧
    nextIs (step (testState 0#32 0x40 0#4 [] [] 0xEA800000#32)) (fun t => t.pc == 0xFE000004#32) = true := by decide
theorem test_bl :
    nextIs (step (testState 0#32 0x40 0#4 [] [] 0xEB000001#32)) (fun t => t.pc == 8#32 && t.reg 14 == 4#32) = true ∧
    nextIs (step (testState 0x20#32 0x40 0#4 [] [] 0x0B000004#32)) (fun t => t.pc == 0x24#32 && t.reg 14 == 0#32) =
      true := by decide

/-! ## Loads and stores (95_test_vectors.md 2.6) -/

theorem test_ldr :
    nextIs (step (testState 0#32 0x40 0#4 [(1, 0x20#32)] [(0x20, 0x11223344#32)] 0xE5910000#32))
      (fun t => t.reg 0 == 0x11223344#32 && t.mem.read 0x20 == 0x44#8) = true ∧
    nextIs (step (testState 0#32 0x40 0#4 [(0, 0x20#32)] [(0x20, 0x30#32)] 0xE590F000#32)) (fun t => t.pc == 0x30#32) =
      true := by decide
theorem test_ldr_faults :
    faultIs (step (testState 0#32 0x40 0#4 [(1, 0x22#32)] [] 0xE5910000#32)) (.invalidAddress 0#32 0x22#32) = true ∧
    faultIs (step (testState 0#32 0x40 0#4 [(1, 0xFFFFFFFC#32)] [] 0xE5910000#32))
      (.invalidAddress 0#32 0xFFFFFFFC#32) = true := by decide
theorem test_str :
    nextIs (step (testState 0#32 0x40 0#4 [(0, 0xA1B2C3D4#32), (1, 0x20#32)] [] 0xE5810000#32))
      (fun t => t.mem.read 0x20 == 0xD4#8 && t.mem.read 0x21 == 0xC3#8 && t.mem.read 0x22 == 0xB2#8 &&
        t.mem.read 0x23 == 0xA1#8) = true ∧
    nextIs (step (testState 0#32 0x40 0#4 [(0, 0x20#32)] [] 0xE580F000#32)) (fun t => t.mem.readWord 0x20 == 4#32) =
      true := by decide
theorem test_str_fault :
    faultIs (step (testState 0#32 0x42 0#4 [(0, 5#32), (1, 0x40#32)] [] 0xE5810000#32))
      (.invalidAddress 0#32 0x40#32) = true := by decide

/-! ## Fetch, mode and batch (95_test_vectors.md 2.7, S11a, S11b) -/

theorem test_fetch_faults :
    faultIs (step (construct [] 0x40 2#32 .arm)) (.unalignedFetch 2#32 2#32) = true ∧
    faultIs (step (construct [] 8 8#32 .arm)) (.invalidAddress 8#32 8#32) = true ∧
    faultIs (step (construct [] 16 15#32 .arm)) (.unalignedFetch 15#32 15#32) = true ∧
    faultIs (step (construct [] 13 12#32 .arm)) (.invalidAddress 12#32 12#32) = true ∧
    faultIs (step (construct [] 0x40 1#32 .reduced)) (.unalignedFetch 1#32 1#32) = true := by decide
theorem test_reduced_mode :
    faultIs (step (reducedState 0#32 0x40 [(0, 0xE3A00005#32)])) (.unsupportedInstruction 0#32 0x00000005#32) =
      true ∧
    faultIs (step (reducedState 2#32 0x40 [(0, 0xE3A00005#32)])) (.unsupportedInstruction 2#32 0x0000E3A0#32) =
      true := by decide
theorem test_batch :
    stepBatch 0#32 (testState 0#32 0x40 0#4 [] [] 0xE3A00005#32) =
      ⟨testState 0#32 0x40 0#4 [] [] 0xE3A00005#32, .completed⟩ ∧
    stepBatch 1#32 (construct [] 16 15#32 .arm) =
      ⟨construct [] 16 15#32 .arm, .faulted (.unalignedFetch 15#32 15#32)⟩ := by decide

/-! ## Reset, construction and the host's side (70_reset_and_hazards.md R137 to R139) -/

theorem test_reset_is_a_construction :
    State.reset = construct [] Config.memSize Config.resetPc Config.initMode := by decide
theorem test_withFetchWord_runs_the_word :
    nextIs (step (State.reset.withFetchWord 32 0xE3A00005)) (fun t => t.reg 0 == 5#32 && t.pc == 4#32) = true := by
  decide
theorem test_host_write : ((construct [] 4 0#32 .arm).hostWrite 3 7#8).mem = [(3, 7#8)] ∧
    ((construct [] 4 0#32 .arm).hostWrite 4 7#8).mem = [] := by decide
theorem test_memory_write_of_unlisted_value_removes_the_cell : Memory.write [(3, 7#8), (5, 9#8)] 3 0#8 = [(5, 9#8)] := by
  decide
/-! ## Witnesses: for each statement with hypotheses, a concrete state and operands that meet all of them -/

/-- MOV r0, #5 at 0, in a memory of exactly four bytes. -/
def movState : State := testState 0#32 4 0#4 [] [] 0xE3A00005#32

/-- LDR r0, [r1] at 0 with r1 = `a`, in a memory of `n` bytes. -/
def ldrState (n : Nat) (a : Word) : State := testState 0#32 n 0#4 [(1, a)] [(0x3C, 0x11223344#32)] 0xE5910000#32

/-- STR r0, [r1] at 0 with r0 = 5 and r1 = `a`, in a memory of `n` bytes. -/
def strState (n : Nat) (a : Word) : State := testState 0#32 n 0#4 [(0, 5#32), (1, a)] [] 0xE5810000#32

/-- A word at 0 in a memory of 0x40 bytes, flags clear, every register its number times 4. -/
def wordState (w : Word) : State :=
  testState 0#32 0x40 0#4 [(0, 0#32), (1, 4#32), (2, 8#32), (3, 12#32), (4, 16#32), (14, 56#32)] [] w

/-- The state in which an instruction at 0 executes: x[15] = 4. -/
def execState : State := (wordState 0xE3A00005#32).advance

/-! ### Decoding -/

theorem witness_DecodeOfEncodeIsIdentity :
    (Instr.movReg .al false 15 31 .ror 15).wf = true ∧ (Instr.addImm .le true 15 14 15 255#8).wf = true ∧
    (Instr.b .eq 0xFFFFFF#24).wf = true ∧ (Instr.str .al 15 15).wf = true := by decide
theorem witness_EncodeOfDecodeIsIdentity :
    decodeWord 0xE3A00005#32 = .ok (.movImm .al false 0 0 5#8) ∧ decodeWord 0x0AFFFFFF#32 = .ok (.b .eq 0xFFFFFF#24) := by
  decide
/-- A word of the table; and one word for each way to be outside it. -/
theorem witness_DecoderAcceptsExactlyTheTable :
    (∃ r ∈ opcodeTable, r.matches 0xE1A0F00E#32 = true ∧ r.mnemonic = "MOV") ∧
    ¬ FlagSettingPcWrite 0xE1A0F00E#32 ∧ (0xE1A0F00E#32).extractLsb' 28 4 ≠ 0b1111#4 ∧
    FlagSettingPcWrite 0xE1B0F00E#32 ∧ (0xF3A00005#32).extractLsb' 28 4 = 0b1111#4 ∧
    ∀ r ∈ opcodeTable, r.matches 0xEF000000#32 = false := by
  unfold FlagSettingPcWrite
  decide
theorem witness_TableRowsAreDisjoint :
    (⟨"LDR", 0x0FF00FFF#32, 0x05900000#32⟩ : OpcodeRow) ∈ opcodeTable ∧
    (⟨"LDR", 0x0FF00FFF#32, 0x05900000#32⟩ : OpcodeRow).matches 0xE5910000#32 = true := by decide
theorem witness_UnmatchedWordsFault :
    FetchesArm (wordState 0xEF000000#32) 0xEF000000#32 ∧ (wordState 0xEF000000#32).evaluates 0xEF000000#32 = .pass ∧
    ∀ r ∈ opcodeTable, r.matches 0xEF000000#32 = false := by
  unfold FetchesArm
  decide
/-- The hypotheses of the statement about 30_encoding.md R63, of one word. -/
def OutsideWitness (w : Word) : Prop :=
  FetchesArm (wordState w) w ∧ OutsideSubset w ∧ (wordState w).evaluates w ≠ .fail

theorem witness_EncodingsOutside_testWithoutFlags : OutsideWitness 0xE10F0000#32 := by
  unfold OutsideWitness FetchesArm OutsideSubset FlagSettingPcWrite
  decide
theorem witness_EncodingsOutside_registerShiftSpace : OutsideWitness 0xE0000291#32 := by
  unfold OutsideWitness FetchesArm OutsideSubset FlagSettingPcWrite
  decide
theorem witness_EncodingsOutside_transferForm : OutsideWitness 0xE5910004#32 := by
  unfold OutsideWitness FetchesArm OutsideSubset FlagSettingPcWrite
  decide
theorem witness_EncodingsOutside_class011 : OutsideWitness 0xE7910002#32 := by
  unfold OutsideWitness FetchesArm OutsideSubset FlagSettingPcWrite
  decide
theorem witness_EncodingsOutside_class100 : OutsideWitness 0xE8BD0001#32 := by
  unfold OutsideWitness FetchesArm OutsideSubset FlagSettingPcWrite
  decide
theorem witness_EncodingsOutside_class110 : OutsideWitness 0xED900000#32 := by
  unfold OutsideWitness FetchesArm OutsideSubset FlagSettingPcWrite
  decide
theorem witness_EncodingsOutside_class111 : OutsideWitness 0xEF000000#32 := by
  unfold OutsideWitness FetchesArm OutsideSubset FlagSettingPcWrite
  decide
theorem witness_EncodingsOutside_condition1111 : OutsideWitness 0xF3A00005#32 := by
  unfold OutsideWitness FetchesArm OutsideSubset FlagSettingPcWrite
  decide
theorem witness_EncodingsOutside_testWithRd : OutsideWitness 0xE311F000#32 := by
  unfold OutsideWitness FetchesArm OutsideSubset FlagSettingPcWrite
  decide
theorem witness_EncodingsOutside_moveWithRn : OutsideWitness 0xE3A10005#32 := by
  unfold OutsideWitness FetchesArm OutsideSubset FlagSettingPcWrite
  decide
theorem witness_EncodingsOutside_flagSettingPcWrite : OutsideWitness 0xE1B0F00E#32 := by
  unfold OutsideWitness FetchesArm OutsideSubset FlagSettingPcWrite
  decide

/-! ### The cycle -/

theorem witness_StepRunsTheDecodedInstruction :
    movState.mode = .arm ∧ movState.pc.toNat % 4 = 0 ∧ movState.pc.toNat + 3 < movState.memSize ∧
    decodeWord (movState.mem.readWord movState.pc.toNat) = .ok (.movImm .al false 0 0 5#8) := by decide
theorem witness_Fetch_unaligned :
    (construct [] 8 2#32 .arm).pc.toNat % fetchWidth (construct [] 8 2#32 .arm).mode ≠ 0 ∧
    (construct [] 8 1#32 .reduced).pc.toNat % fetchWidth (construct [] 8 1#32 .reduced).mode ≠ 0 := by decide
theorem witness_Fetch_outOfBounds :
    (construct [] 13 12#32 .arm).pc.toNat % fetchWidth (construct [] 13 12#32 .arm).mode = 0 ∧
    (construct [] 13 12#32 .arm).memSize ≤
      (construct [] 13 12#32 .arm).pc.toNat + fetchWidth (construct [] 13 12#32 .arm).mode - 1 := by decide
theorem witness_Fetch_reads :
    movState.pc.toNat % fetchWidth movState.mode = 0 ∧
    movState.pc.toNat + fetchWidth movState.mode - 1 < movState.memSize ∧
    (reducedState 2#32 4 []).pc.toNat + fetchWidth (reducedState 2#32 4 []).mode - 1 <
      (reducedState 2#32 4 []).memSize := by decide
theorem witness_Fetch_wrapsThePc :
    let s := construct [] (2 ^ 32) 0xFFFFFFFC#32 .arm
    s.pc.toNat % fetchWidth s.mode = 0 ∧ s.pc.toNat + fetchWidth s.mode - 1 < s.memSize ∧ s.advance.pc = 0#32 := by
  decide
theorem witness_Fetch_faultKeepsTheState :
    step (construct [] 8 8#32 .arm) = .fault (.invalidAddress 8#32 8#32) := rfl
theorem witness_ReducedModeFetchesAndFaults :
    (reducedState 2#32 4 []).mode = .reduced ∧ (reducedState 2#32 4 []).pc.toNat % 2 = 0 ∧
    (reducedState 2#32 4 []).pc.toNat + 1 < (reducedState 2#32 4 []).memSize := by decide
/-- A state whose CPSR bits 31 to 28 are 0, 1, 1 and 0. -/
theorem witness_EvaluatorMatchesTheRelationTable :
    let s := testState 0#32 0x40 0b0110#4 [] [] 0xE3A00005#32
    s.cpsr.getLsbD 31 = false ∧ s.cpsr.getLsbD 30 = true ∧ s.cpsr.getLsbD 29 = true ∧ s.cpsr.getLsbD 28 = false := by
  decide
theorem witness_ReservedConditionFaults :
    FetchesArm (wordState (0b1111#4 ++ 0x3A00005#28)) (0b1111#4 ++ 0x3A00005#28) := by
  unfold FetchesArm
  decide
theorem witness_FailedConditionOnlyAdvancesThePc :
    FetchesArm (wordState 0x00000291#32) 0x00000291#32 ∧ (wordState 0x00000291#32).evaluates 0x00000291#32 = .fail := by
  unfold FetchesArm
  decide
theorem witness_ExecWithFailedConditionChangesNothing :
    execState.passes (Instr.bl .eq 4#24).cond = false ∧ execState.passes (Instr.addImm .mi true 0 1 0 5#8).cond = false ∧
    execState.passes (Instr.str .hi 0 1).cond = false := by decide
/-- Both outcomes happen: a step that retires and a step that faults. -/
theorem witness_StepNeverRefuses :
    step movState = .next (after (step movState) movState) ∧
    step (construct [] 8 8#32 .arm) = .fault (.invalidAddress 8#32 8#32) := ⟨rfl, rfl⟩
/-- The last word of memory is loaded from, the next address is not. -/
theorem witness_StepRetiresExactlyWhenEveryCheckPasses :
    decodeWord ((ldrState 0x40 0x3C#32).mem.readWord 0) = .ok (.ldr .al 1 0) ∧
    (ldrState 0x40 0x3C#32).evaluates ((ldrState 0x40 0x3C#32).mem.readWord 0) = .pass ∧
    WordInMemory (ldrState 0x40 0x3C#32).memSize ((ldrState 0x40 0x3C#32).advance.reg 1) ∧
    ¬ WordInMemory (ldrState 0x40 0x40#32).memSize ((ldrState 0x40 0x40#32).advance.reg 1) ∧
    (wordState 0x00000291#32).evaluates ((wordState 0x00000291#32).mem.readWord 0) = .fail := by
  unfold WordInMemory
  decide

/-! ### Data processing: the flag-setting form and the form that jumps -/

theorem witness_DataProcessing :
    execState.passes .al = true ∧ execState.passes .ne = true ∧ flagFormOk true 14 = true ∧
    flagFormOk false 15 = true := by decide
theorem witness_AndWritesTheConjunction : execState.passes .al = true ∧ flagFormOk true 0 = true := by decide
theorem witness_EorWritesTheExclusiveOr : execState.passes .al = true ∧ flagFormOk true 1 = true := by decide
theorem witness_SubWritesTheDifference : execState.passes .al = true ∧ flagFormOk true 2 = true := by decide
theorem witness_RsbWritesTheReverseDifference : execState.passes .al = true ∧ flagFormOk false 15 = true := by decide
theorem witness_AddWritesTheSum : execState.passes .ne = true ∧ flagFormOk true 14 = true := by decide
theorem witness_AdcWritesTheSumWithCarry : execState.passes .ge = true ∧ flagFormOk true 3 = true := by decide
theorem witness_SbcWritesTheDifferenceWithBorrow : execState.passes .cc = true ∧ flagFormOk false 15 = true := by decide
theorem witness_RscWritesTheReverseDifferenceWithBorrow : execState.passes .pl = true ∧ flagFormOk true 4 = true := by
  decide
theorem witness_TstSetsFlagsOfTheConjunction : execState.passes .al = true := by decide
theorem witness_TeqSetsFlagsOfTheExclusiveOr : execState.passes .vc = true := by decide
theorem witness_CmpSetsFlagsOfTheDifference : execState.passes .ls = true := by decide
theorem witness_CmnSetsFlagsOfTheSum : execState.passes .gt = true := by decide
theorem witness_OrrWritesTheDisjunction : execState.passes .al = true ∧ flagFormOk true 5 = true := by decide
theorem witness_MovWritesOperandTwo : execState.passes .al = true ∧ flagFormOk false 15 = true := by decide
theorem witness_BicWritesTheMaskedValue : execState.passes .al = true ∧ flagFormOk true 6 = true := by decide
theorem witness_MvnWritesTheComplement : execState.passes .al = true ∧ flagFormOk true 7 = true := by decide
theorem witness_TestOpcodesOnlySetFlags :
    (Instr.cmpReg .al 0 0 .lsl 1).dp? = some ⟨.cmp, true, 0, 0, .shifted 1 .lsl 0⟩ ∧
    DpOp.cmp ∈ [DpOp.tst, .teq, .cmp, .cmn] ∧ execState.passes (Instr.cmpReg .al 0 0 .lsl 1).cond = true := by decide

/-! ### The shifter: the amount 0, and 1 and 31; the rotation 0, and 1 and 15 -/

theorem witness_Shifts : (0 : Fin 32) = 0 ∧ (1 : Fin 32) ≠ 0 ∧ (31 : Fin 32) ≠ 0 := by decide
theorem witness_ImmediateOperandIsRotated : (0 : Fin 16) = 0 ∧ (1 : Fin 16) ≠ 0 ∧ (15 : Fin 16) ≠ 0 := by decide

/-! ### Branches -/

theorem witness_BranchJumps :
    execState.passes .al = true ∧ execState.pc = 0#32 + 4#32 := by decide
/-- A target outside memory, which faults at the next fetch. -/
theorem witness_Branch_targetOutsideMemory :
    let t := after (exec (.b .al 0x10#24) execState) execState
    exec (.b .al 0x10#24) execState = .next t ∧ t.mode = .arm ∧ t.pc.toNat % 4 = 0 ∧ t.memSize ≤ t.pc.toNat + 3 :=
  ⟨rfl, by decide, by decide, by decide⟩
theorem witness_BranchWithLink :
    execState.pc = 0#32 + 4#32 ∧ execState.passes .al = true ∧ execState.passes .eq = false := by decide

/-! ### Loads and stores, at the last word of memory -/

theorem witness_LdrLoadsTheWord :
    (ldrState 0x40 0x3C#32).passes .al = true ∧ WordInMemory (ldrState 0x40 0x3C#32).memSize ((ldrState 0x40 0x3C#32).reg 1) := by
  unfold WordInMemory
  decide
theorem witness_StrStoresTheWord :
    (strState 0x40 0x3C#32).passes .al = true ∧ (strState 0x40 0x3C#32).mem.wf ∧
    WordInMemory (strState 0x40 0x3C#32).memSize ((strState 0x40 0x3C#32).reg 1) := by
  unfold WordInMemory
  decide
theorem witness_TransferFault_misaligned :
    let s := ldrState 0x40 0x22#32
    s.mode = .arm ∧ s.pc.toNat % 4 = 0 ∧ s.pc.toNat + 3 < s.memSize ∧
    decodeWord (s.mem.readWord s.pc.toNat) = .ok (.ldr .al 1 0) ∧ s.passes .al = true ∧
    (s.advance.reg 1).toNat % 4 ≠ 0 := by decide
theorem witness_TransferFault_outOfBounds :
    let s := strState 0x42 0x40#32
    s.mode = .arm ∧ s.pc.toNat % 4 = 0 ∧ s.pc.toNat + 3 < s.memSize ∧
    decodeWord (s.mem.readWord s.pc.toNat) = .ok (.str .al 1 0) ∧ s.passes .al = true ∧
    (s.advance.reg 1).toNat % 4 = 0 ∧ s.memSize ≤ (s.advance.reg 1).toNat + 3 := by decide

/-! ### Frames and invariants -/

theorem witness_OnlyFlagSettersWriteTheCpsr :
    exec (.movImm .al false 0 0 5#8) execState = .next (after (exec (.movImm .al false 0 0 5#8) execState) execState) ∧
    exec (.andImm .al true 0 1 0 5#8) execState =
      .next (after (exec (.andImm .al true 0 1 0 5#8) execState) execState) ∧
    (Instr.movImm .al false 0 0 5#8).dp? = some ⟨.mov, false, 0, 0, .imm 0 5#8⟩ ∧
    (Instr.andImm .al true 0 1 0 5#8).dp? = some ⟨.and, true, 0, 1, .imm 0 5#8⟩ := ⟨rfl, rfl, rfl, rfl⟩
/-- A step that is no STR, and one that is an STR whose condition fails (STREQ r0, [r1] with Z clear). -/
theorem witness_OnlyStrChangesMemory :
    step movState = .next (after (step movState) movState) ∧
    decodeWord (movState.mem.readWord 0) = .ok (.movImm .al false 0 0 5#8) ∧
    step (wordState 0x05810000#32) = .next (after (step (wordState 0x05810000#32)) (wordState 0x05810000#32)) ∧
    decodeWord ((wordState 0x05810000#32).mem.readWord 0) = .ok (.str .eq 1 0) ∧
    (wordState 0x05810000#32).passes .eq = false := ⟨rfl, by decide, rfl, by decide, by decide⟩
/-- Each instruction that writes a register does write it here: MOV r1, LDR r0, BL and B. -/
theorem witness_CycleWritesAtMostOneRegisterBesideThePc :
    (after (exec (.movImm .al false 1 0 5#8) execState) execState).reg 1 ≠ execState.reg 1 ∧
    (after (exec (.ldr .al 0 2) execState) execState).reg 2 ≠ execState.reg 2 ∧
    (after (exec (.bl .al 0x4#24) execState) execState).reg 14 ≠ execState.reg 14 ∧
    (after (exec (.b .al 0x4#24) execState) execState).reg 15 ≠ execState.reg 15 := by decide
/-- A branch, a link, a load into the PC and a move into the PC each move the PC elsewhere. -/
theorem witness_PcMoves_branches :
    nextIs (step (wordState 0xEA000001#32)) (fun t => t.pc != 0#32 + 4#32) = true ∧
    nextIs (step (wordState 0xEB000001#32)) (fun t => t.pc != 0#32 + 4#32) = true := by decide
theorem witness_PcMoves_loadAndMove :
    nextIs (step (wordState 0xE592F000#32)) (fun t => t.pc != 0#32 + 4#32) = true ∧
    nextIs (step (wordState 0xE1A0F00E#32)) (fun t => t.pc != 0#32 + 4#32) = true := by decide
theorem witness_SpsrModeAndMemorySizeNeverChange : step movState = .next (after (step movState) movState) := rfl
theorem witness_StepKeepsTheStateLegal :
    movState.Legal ∧ step movState = .next (after (step movState) movState) :=
  ⟨⟨by decide, by decide, by decide, by decide, by decide⟩, rfl⟩
theorem witness_SnapshotConstruction : movState.Legal := witness_StepKeepsTheStateLegal.1

/-! ### Construction, stored words, batches, reads of the PC -/

theorem witness_ConstructionGivesTheResetValues :
    (3 : Reg) ≠ 15 ∧ (construct [] 8 4#32 .reduced).mode = .reduced ∧ (construct [] 8 4#32 .arm).mode = .arm := by decide
/-- The word 5 is stored at 0x3C, then fetched from there and loaded from there. -/
theorem witness_StoredWordIsLoadedAndFetched :
    let s := strState 0x40 0x3C#32
    let t := after (exec (.str .al 1 0) s) s
    let u := t.setPc 0x3C#32
    s.mem.wf ∧ s.passes .al = true ∧ exec (.str .al 1 0) s = .next t ∧ u.mem = t.mem ∧ u.memSize = t.memSize ∧
    u.mode = .arm ∧ u.pc = s.reg 1 ∧ u.passes .al = true ∧ u.reg 1 = s.reg 1 :=
  ⟨by decide, by decide, rfl, rfl, rfl, by decide, by decide, by decide, by decide⟩
/-- One cycle retires; the next one, at 4 in a memory of four bytes, faults. -/
theorem witness_BatchRunsToCountOrStopsAtTheFirstFault :
    RunsTo (1#32).toNat movState (after (step movState) movState) ∧ 1 < (2#32).toNat ∧
    step (after (step movState) movState) = .fault (.invalidAddress 4#32 4#32) :=
  ⟨⟨_, rfl, rfl⟩, by decide, rfl⟩
theorem witness_BatchRestartsFromTheReturnedState :
    (1#32).toNat + (1#32).toNat < 2 ^ 32 ∧ stepBatch 1#32 movState = ⟨after (step movState) movState, .completed⟩ ∧
    stepBatch 2#32 movState = ⟨after (step movState) movState, .faulted (.invalidAddress 4#32 4#32)⟩ ∧
    (1#32 : Word) ≠ 0#32 := ⟨by decide, rfl, rfl, by decide⟩
/-- ADD r3, pc, #0; then MOV r3, pc; then STR pc, [r4]; each at 0. -/
theorem witness_ReadOfThePc_add :
    let s := wordState 0xE28F3000#32
    s.mode = .arm ∧ s.pc.toNat % 4 = 0 ∧ s.pc.toNat + 3 < s.memSize ∧ s.passes .al = true ∧
    decodeWord (s.mem.readWord s.pc.toNat) = .ok (.addImm .al false 15 3 0 0#8) := by decide
theorem witness_ReadOfThePc_mov :
    let s := wordState 0xE1A0300F#32
    s.mode = .arm ∧ s.pc.toNat % 4 = 0 ∧ s.pc.toNat + 3 < s.memSize ∧ s.passes .al = true ∧
    decodeWord (s.mem.readWord s.pc.toNat) = .ok (.movReg .al false 3 0 .lsl 15) := by decide
theorem witness_ReadOfThePc_str :
    let s := wordState 0xE584F000#32
    s.mode = .arm ∧ s.pc.toNat % 4 = 0 ∧ s.pc.toNat + 3 < s.memSize ∧ s.passes .al = true ∧
    decodeWord (s.mem.readWord s.pc.toNat) = .ok (.str .al 4 15) ∧ s.mem.wf ∧
    WordInMemory s.memSize (s.advance.reg 4) := by
  unfold WordInMemory
  decide

end Sys2Proof.Tests
end

/-! PROOFS. The block has no refusal: every instruction, and so every step, answers a next state or a fault
(00_scope.md R10). -/

namespace Sys2Proof.Machine

/-- A failed condition leaves the state as it is, whatever the instruction (45_execution_loop.md R117). -/
theorem exec_conditionFails (i : Instr) (s : State) (h : s.passes i.cond = false) : exec i s = .next s := by
  rcases instr_cases i with ⟨d, hd⟩ | ⟨c, m, rfl⟩ | ⟨c, m, rfl⟩ | ⟨c, rn, rd, rfl⟩ | ⟨c, rn, rd, rfl⟩
  · simp [exec_dp i d s hd, h]
  · exact show execB c m s = .next s from whenPasses_fail c s _ h
  · exact show execBl c m s = .next s from whenPasses_fail c s _ h
  · exact show execLdr c rn rd s = .next s from whenPasses_fail c s _ h
  · exact show execStr c rn rd s = .next s from whenPasses_fail c s _ h

/-- No instruction is refused; only the data access of LDR and STR can fault. -/
theorem exec_next_or_fault (i : Instr) (s : State) : (∃ t, exec i s = .next t) ∨ ∃ e, exec i s = .fault e := by
  cases hp : s.passes i.cond with
  | false => exact .inl ⟨s, exec_conditionFails i s hp⟩
  | true =>
    rcases instr_cases i with ⟨d, hd⟩ | ⟨c, m, rfl⟩ | ⟨c, m, rfl⟩ | ⟨c, rn, rd, rfl⟩ | ⟨c, rn, rd, rfl⟩
    · exact .inl ⟨dpNext d s, by simp [exec_dp i d s hd, hp]⟩
    · exact .inl ⟨_, exec_b c m s hp⟩
    · exact .inl ⟨_, exec_bl c m s hp⟩
    · cases ha : dataAccessOk s.memSize (s.reg rn) with
      | true => exact .inl ⟨_, exec_ldr_ok c rn rd s hp ha⟩
      | false => exact .inr ⟨_, exec_ldr_fault c rn rd s hp ha⟩
    · cases ha : dataAccessOk s.memSize (s.reg rn) with
      | true => exact .inl ⟨_, exec_str_ok c rn rd s hp ha⟩
      | false => exact .inr ⟨_, exec_str_fault c rn rd s hp ha⟩

/-- No step is refused: the checks before execution only fault, in the order of 60_exceptions.md R129. -/
theorem step_next_or_fault (s : State) : (∃ t, step s = .next t) ∨ ∃ e, step s = .fault e := by
  cases hf : s.fetch with
  | error e => exact .inr ⟨e, step_fetchFault s e hf⟩
  | ok w =>
    cases hm : s.mode with
    | reduced => exact .inr ⟨_, step_reduced s w hm hf⟩
    | arm =>
      cases he : s.evaluates w with
      | reserved => exact .inr ⟨_, step_reserved s w hm hf he⟩
      | fail => exact .inl ⟨_, step_fail s w hm hf he⟩
      | pass =>
        cases hd : decodeWord w with
        | error e => exact .inr ⟨_, step_undecodable s w e hm hf he hd⟩
        | ok i =>
          rw [step_decoded s w i hm hf he hd]
          exact exec_next_or_fault i s.advance

end Sys2Proof.Machine

namespace Sys2Proof.Claims

open Sys2Proof.Machine

/-- Settles O14: a step that does not retire faults, and a batch of that one cycle returns the state it began in. -/
theorem stepNeverRefuses : Obligations.StepNeverRefuses := by
  unfold Obligations.StepNeverRefuses
  intro s
  rcases step_next_or_fault s with hnext | ⟨e, hfault⟩
  · exact .inl hnext
  · exact .inr ⟨e, hfault, stepBatch_one_fault s e hfault⟩

end Sys2Proof.Claims

/-! PROOFS. The right shifts of the barrel shifter: one equation for the amount 0 and one for the amounts 1 to 31, and
what their results are as numbers or bit by bit (41_shifter.md R73 to R75). -/

namespace Sys2Proof.Machine

@[simp] theorem shift_lsr_zero (v : Word) (c : Bool) : shift v .lsr 0 c = ⟨0#32, v.getLsbD 31⟩ := rfl

@[simp] theorem shift_asr_zero (v : Word) (c : Bool) :
    shift v .asr 0 c = ⟨if v.getLsbD 31 then 0xFFFFFFFF#32 else 0#32, v.getLsbD 31⟩ := rfl

@[simp] theorem shift_ror_zero (v : Word) (c : Bool) :
    shift v .ror 0 c = ⟨((BitVec.ofBool c).setWidth 32 <<< 31) ||| (v >>> 1), v.getLsbD 0⟩ := rfl

theorem shift_lsr_of_ne_zero (v : Word) {n : Fin 32} (c : Bool) (hn : n ≠ 0) :
    shift v .lsr n c = ⟨v >>> n.val, v.getLsbD (n.val - 1)⟩ := if_neg (Fin.val_ne_zero_iff.mpr hn)

theorem shift_asr_of_ne_zero (v : Word) {n : Fin 32} (c : Bool) (hn : n ≠ 0) :
    shift v .asr n c = ⟨v.sshiftRight n.val, v.getLsbD (n.val - 1)⟩ := if_neg (Fin.val_ne_zero_iff.mpr hn)

theorem shift_ror_of_ne_zero (v : Word) {n : Fin 32} (c : Bool) (hn : n ≠ 0) :
    shift v .ror n c = ⟨rotateRight v n.val, v.getLsbD (n.val - 1)⟩ := if_neg (Fin.val_ne_zero_iff.mpr hn)

/-- Every bit of the word ASR gives for the amount 32 is the sign it copies. -/
theorem signFill_getLsbD (b : Bool) {k : Nat} (hk : k < 32) :
    (if b then 0xFFFFFFFF#32 else 0#32).getLsbD k = b := by
  cases b with
  | false => simp
  | true => exact BitVec.getLsbD_allOnes.trans (decide_eq_true hk)

/-- RRX puts the carry in at the top. -/
theorem shift_ror_zero_getLsbD_31 (v : Word) (c : Bool) : (shift v .ror 0 c).result.getLsbD 31 = c := by
  simp

/-- RRX moves every bit below the top down by one. -/
theorem shift_ror_zero_getLsbD (v : Word) (c : Bool) {k : Nat} (hk : k < 31) :
    (shift v .ror 0 c).result.getLsbD k = v.getLsbD (k + 1) := by
  simp [hk, Nat.add_comm 1 k]

/-- The last bit a rotation takes out at the bottom comes in at the top. -/
theorem rotateRight_getLsbD_31 (v : Word) {n : Nat} (h0 : n ≠ 0) (hn : n < 32) :
    (rotateRight v n).getLsbD 31 = v.getLsbD (n - 1) := by
  have hmod : (31 + n) % 32 = n - 1 := by omega
  rw [rotateRight_getLsbD v n 31 hn (by decide), hmod]

end Sys2Proof.Machine

namespace Sys2Proof.Claims

open Sys2Proof.Machine

/-- Settles O41: a logical shift right by n divides the unsigned value by 2^n. -/
theorem lsrShiftsRight : Obligations.LsrShiftsRight := by
  unfold Obligations.LsrShiftsRight
  intro v n c
  constructor
  · rintro rfl
    exact shift_lsr_zero v c
  · intro hn
    rw [shift_lsr_of_ne_zero v c hn]
    exact ⟨(BitVec.toNat_ushiftRight v n).trans (Nat.shiftRight_eq_div_pow _ _), rfl⟩

/-- Settles O42: an arithmetic shift right by n is the floor division of the signed value by 2^n. -/
theorem asrShiftsRightWithSign : Obligations.AsrShiftsRightWithSign := by
  unfold Obligations.AsrShiftsRightWithSign
  intro v n c
  constructor
  · rintro rfl
    rw [shift_asr_zero]
    exact ⟨fun k hk => signFill_getLsbD _ hk, rfl⟩
  · intro hn
    rw [shift_asr_of_ne_zero v c hn]
    exact ⟨BitVec.toInt_sshiftRight.trans (Int.shiftRight_eq_div_pow _ _), rfl⟩

/-- Settles O43: RRX and the rotation bit by bit; the carry of a rotation is the bit that comes round to the top. -/
theorem rorRotatesAndZeroIsRrx : Obligations.RorRotatesAndZeroIsRrx := by
  unfold Obligations.RorRotatesAndZeroIsRrx
  intro v n c
  constructor
  · rintro rfl
    exact ⟨shift_ror_zero_getLsbD_31 v c, fun k hk => shift_ror_zero_getLsbD v c hk, rfl⟩
  · intro hn
    rw [shift_ror_of_ne_zero v c hn]
    exact ⟨fun k hk => rotateRight_getLsbD v n k n.isLt hk, rfl,
      (rotateRight_getLsbD_31 v (Fin.val_ne_zero_iff.mpr hn) n.isLt).symm⟩

end Sys2Proof.Claims

/-! PROOFS. The test-only opcodes TST, TEQ, CMP and CMN: the flag write is the only effect (42_data_processing.md
R84, R85). -/

namespace Sys2Proof.Machine

theorem testOnly_eq_true_iff (op : DpOp) : op.testOnly = true ↔ op ∈ [DpOp.tst, .teq, .cmp, .cmn] := by
  cases op <;> decide

/-- The V that flag setting writes is the ALU's overflow out: the logical group passes the old V through the ALU. -/
theorem dpOverflow_eq_overflowOut (d : DpFields) (s : State) : dpOverflow d s = (dpOut d s).overflowOut := by
  rw [dpOverflow, dpOut]
  cases d.op <;> rfl

/-- A test-only instruction has no form without flag setting (42_data_processing.md R84). -/
theorem setFlags_of_testOnly {i : Instr} {d : DpFields} (hd : i.dp? = some d) (ht : d.op.testOnly = true) :
    d.setFlags = true := by
  cases i <;> cases hd <;> simp [DpOp.testOnly] at ht ⊢

/-- The state after a test-only instruction is the one before with the four flags written. -/
theorem dpNext_of_testOnly {d : DpFields} (s : State) (ht : d.op.testOnly = true) (hf : d.setFlags = true) :
    dpNext d s = s.setNzcv ((dpOut d s).result.getLsbD 31) ((dpOut d s).result == 0#32) (dpOut d s).carryOut
      (dpOut d s).overflowOut := by
  simp only [dpNext, ht, hf, if_true, dpOverflow_eq_overflowOut]

end Sys2Proof.Machine

namespace Sys2Proof.Claims

open Sys2Proof.Machine

/-- Writing N and Z of a result, and these C and V, changes nothing but those flags. -/
theorem setsFlags_of_exec_eq {i : Instr} {s : State} {res : Word} {carry overflow : Bool}
    (h : exec i s = .next (s.setNzcv (res.getLsbD 31) (res == 0#32) carry overflow)) :
    SetsFlags i s res carry overflow :=
  ⟨_, h, fun r => reg_setNzcv s _ _ _ _ r,
    ⟨flagN_setNzcv s _ _ _ _, flagZ_setNzcv s _ _ _ _, flagC_setNzcv s _ _ _ _, flagV_setNzcv s _ _ _ _⟩,
    fun k hk => cpsrLow_setNzcv s _ _ _ _ k hk, rfl, rfl, fun _ => rfl⟩

/-- A test-only instruction whose condition passes sets the flags of the ALU's outputs and does nothing else. -/
theorem setsFlags_of_testOnly {i : Instr} {d : DpFields} {s : State} (hd : i.dp? = some d)
    (ht : d.op.testOnly = true) (hp : s.passes i.cond = true) :
    SetsFlags i s (dpOut d s).result (dpOut d s).carryOut (dpOut d s).overflowOut := by
  apply setsFlags_of_exec_eq
  rw [exec_dp i d s hd, if_pos hp, dpNext_of_testOnly s ht (setFlags_of_testOnly hd ht)]

/-- Settles O46: a failed condition changes nothing; one that passes writes the flags of the ALU's outputs. -/
theorem testOpcodesOnlySetFlags : Obligations.TestOpcodesOnlySetFlags := by
  unfold Obligations.TestOpcodesOnlySetFlags
  intro i d s hd hop
  have ht : d.op.testOnly = true := (testOnly_eq_true_iff d.op).mpr hop
  refine ⟨setFlags_of_testOnly hd ht, ?_⟩
  cases hp : s.passes i.cond with
  | false =>
    exact ⟨s, exec_conditionFails i s hp, fun _ => rfl, fun _ _ => rfl, ⟨rfl, rfl, fun _ => rfl⟩, nofun⟩
  | true =>
    obtain ⟨t, hexec, hreg, hflags, hlow, hrest⟩ := setsFlags_of_testOnly hd ht hp
    exact ⟨t, hexec, hreg, hlow, hrest, fun _ => hflags⟩

end Sys2Proof.Claims

/-! PROOFS. The decoder is the inverse of the encoder on well-formed instructions: the data-processing formats through
their common operands, then the branch and the transfer format (30_encoding.md R48 to R58). -/

namespace Sys2Proof

/-! ### The data-processing operands of an instruction -/

/-- The word of the data-processing operands, in the format that their operand 2 names (30_encoding.md R48, R49). -/
def dpWord (c : Cond) (d : DpFields) : Word :=
  match d.op2 with
  | .imm rot imm8 => dpImmWord c d.op d.setFlags d.rn d.rd rot imm8
  | .shifted rm kind shamt => dpRegWord c d.op d.setFlags d.rn d.rd shamt kind rm

/-- The fields a row fixes: S = 1 and Rd = 0 of a test-only opcode, Rn = 0 of MOV and MVN (30_encoding.md R51, R52). -/
def DpFields.FixedOk (d : DpFields) : Prop :=
  (d.op.testOnly = true → d.setFlags = true ∧ d.rd = 0) ∧ (d.op.isMove = true → d.rn = 0)

/-- The form of R53: Rd = 15 with S = 1 is no instruction, unless the opcode is test-only (30_encoding.md R53). -/
def DpFields.PcFormOk (d : DpFields) : Prop := d.op.testOnly = false → flagFormOk d.setFlags d.rd = true

theorem encode_eq_dpWord {i : Instr} {d : DpFields} (h : i.dp? = some d) : encode i = dpWord i.cond d := by
  cases i <;> cases h <;> rfl

theorem ofDp_of_dp? {i : Instr} {d : DpFields} (h : i.dp? = some d) : Instr.ofDp i.cond d = i := by
  cases i <;> cases h <;> rfl

@[simp] theorem cond_ofDp (c : Cond) (d : DpFields) : (Instr.ofDp c d).cond = c := by
  obtain ⟨op, f, rn, rd, o⟩ := d
  cases op <;> cases o <;> rfl

theorem fixedOk_of_dp? {i : Instr} {d : DpFields} (h : i.dp? = some d) : d.FixedOk := by
  cases i <;> cases h <;> simp [DpFields.FixedOk, DpOp.testOnly, DpOp.isMove]

/-- No operand is dropped when the fixed fields hold what the row fixes. -/
theorem dp?_ofDp (c : Cond) {d : DpFields} (h : d.FixedOk) : (Instr.ofDp c d).dp? = some d := by
  obtain ⟨op, f, rn, rd, o⟩ := d
  cases op <;> cases o <;> simp_all [DpFields.FixedOk, DpOp.testOnly, DpOp.isMove, Instr.ofDp, Instr.dp?]

/-- A data-processing instruction is well-formed exactly when its operands are no flag-setting write of the PC. -/
theorem wf_iff_pcFormOk {i : Instr} {d : DpFields} (h : i.dp? = some d) : i.wf = true ↔ d.PcFormOk := by
  cases i <;> cases h <;> simp [DpFields.PcFormOk, DpOp.testOnly, Instr.wf]

/-! ### The decoder, format by format -/

/-- `DecodeDP` accepts exactly the operands with the fixed fields and the form of R53. -/
theorem decodeDp_eq_ok_iff (c : Cond) (d : DpFields) (i : Instr) :
    decodeDp c d = .ok i ↔ d.FixedOk ∧ d.PcFormOk ∧ Instr.ofDp c d = i := by
  rw [decodeDp, DpFields.FixedOk, DpFields.PcFormOk]
  split_ifs <;> simp_all

theorem decodeWord_dpWord (c : Cond) (d : DpFields) : decodeWord (dpWord c d) = decodeDp c d := by
  obtain ⟨op, f, rn, rd, _ | _⟩ := d
  · exact decodeWord_dpImmWord ..
  · exact decodeWord_dpRegWord ..

/-- What `decodeClass` accepts: one of the two data-processing formats, the transfer in its one form, or a branch. -/
theorem decodeClass_eq_ok_iff (c : Cond) (w : Word) (i : Instr) : decodeClass c w = .ok i ↔
    w.extractLsb' 25 3 = 0b000#3 ∧ w.getLsbD 4 = false ∧ decodeDp c (dpFields w (shiftedField w)) = .ok i ∨
    w.extractLsb' 25 3 = 0b001#3 ∧ decodeDp c (dpFields w (immField w)) = .ok i ∨
    w.extractLsb' 25 3 = 0b010#3 ∧ decodeTransfer c w = .ok i ∨
    w.extractLsb' 25 3 = 0b101#3 ∧ decodeBranch c w = i := by
  rw [decodeClass]
  split
  · cases hb : w.getLsbD 4 <;> simp_all
  all_goals simp_all

theorem decodeTransfer_eq_ok_iff (c : Cond) (w : Word) (i : Instr) : decodeTransfer c w = .ok i ↔
    w.extractLsb' 21 5 = 0b01100#5 ∧ w.extractLsb' 0 12 = 0#12 ∧
      (if w.getLsbD 20 then Instr.ldr c (index4 (w.extractLsb' 16 4)) (index4 (w.extractLsb' 12 4))
        else .str c (index4 (w.extractLsb' 16 4)) (index4 (w.extractLsb' 12 4))) = i := by
  rw [decodeTransfer]
  grind

theorem decodeWord_eq_ok_iff (w : Word) (i : Instr) : decodeWord w = .ok i ↔
    ∃ c, Cond.ofCode (w.extractLsb' 28 4) = some c ∧ decodeClass c w = .ok i := by
  rw [decodeWord]
  split <;> rename_i hc <;> simp [hc]

/-- The condition of a decoded instruction is the one it was decoded for. -/
theorem cond_of_decodeClass {c : Cond} {w : Word} {i : Instr} (h : decodeClass c w = .ok i) : i.cond = c := by
  rcases (decodeClass_eq_ok_iff c w i).mp h with ⟨-, -, h⟩ | ⟨-, h⟩ | ⟨-, h⟩ | ⟨-, rfl⟩
  · obtain ⟨-, -, rfl⟩ := (decodeDp_eq_ok_iff _ _ _).mp h
    exact cond_ofDp ..
  · obtain ⟨-, -, rfl⟩ := (decodeDp_eq_ok_iff _ _ _).mp h
    exact cond_ofDp ..
  · obtain ⟨-, -, rfl⟩ := (decodeTransfer_eq_ok_iff _ _ _).mp h
    cases w.getLsbD 20 <;> rfl
  · rw [decodeBranch]
    cases w.getLsbD 24 <;> rfl

/-- The condition field of a decoded word is the instruction's condition (30_encoding.md R46). -/
theorem condField_of_decodeWord {w : Word} {i : Instr} (h : decodeWord w = .ok i) :
    Cond.ofCode (w.extractLsb' 28 4) = some i.cond := by
  obtain ⟨c, hc, h⟩ := (decodeWord_eq_ok_iff w i).mp h
  rw [cond_of_decodeClass h, hc]

/-! ### The two round trips -/

/-- A data-processing instruction that is well-formed is what its word decodes to. -/
theorem decodeWord_encode_dp {i : Instr} {d : DpFields} (hd : i.dp? = some d) (hwf : i.wf = true) :
    decodeWord (encode i) = .ok i := by
  rw [encode_eq_dpWord hd, decodeWord_dpWord, decodeDp_eq_ok_iff]
  exact ⟨fixedOk_of_dp? hd, (wf_iff_pcFormOk hd).mp hwf, ofDp_of_dp? hd⟩

/-- Operands that `DecodeDP` accepts are those of the instruction it answers. -/
theorem decodeDp_ok {c : Cond} {d : DpFields} {i : Instr} (h : decodeDp c d = .ok i) :
    i.dp? = some d ∧ i.wf = true ∧ encode i = dpWord c d := by
  obtain ⟨hfix, hpc, rfl⟩ := (decodeDp_eq_ok_iff c d i).mp h
  have hd := dp?_ofDp c hfix
  exact ⟨hd, (wf_iff_pcFormOk hd).mpr hpc, by rw [encode_eq_dpWord hd, cond_ofDp]⟩

theorem dpWord_shiftedField {w : Word} {c : Cond} (hc : Cond.ofCode (w.extractLsb' 28 4) = some c)
    (hcls : w.extractLsb' 25 3 = 0b000#3) (hb : w.getLsbD 4 = false) : dpWord c (dpFields w (shiftedField w)) = w :=
  dpRegWord_of_fields hc hcls hb

theorem dpWord_immField {w : Word} {c : Cond} (hc : Cond.ofCode (w.extractLsb' 28 4) = some c)
    (hcls : w.extractLsb' 25 3 = 0b001#3) : dpWord c (dpFields w (immField w)) = w :=
  dpImmWord_of_fields hc hcls

/-- A word of the transfer format in its one form is the encoding of the LDR or STR it decodes to. -/
theorem decodeTransfer_ok {c : Cond} {w : Word} {i : Instr} (hc : Cond.ofCode (w.extractLsb' 28 4) = some c)
    (hcls : w.extractLsb' 25 3 = 0b010#3) (h : decodeTransfer c w = .ok i) : i.wf = true ∧ encode i = w := by
  obtain ⟨hform, hlow, rfl⟩ := (decodeTransfer_eq_ok_iff c w i).mp h
  have hw := transferWord_of_fields hc hcls hform hlow
  cases hl : w.getLsbD 20 <;> rw [hl] at hw <;> exact ⟨rfl, hw⟩

/-- A word of the branch format is the encoding of the B or BL it decodes to. -/
theorem decodeBranch_ok {c : Cond} {w : Word} (hc : Cond.ofCode (w.extractLsb' 28 4) = some c)
    (hcls : w.extractLsb' 25 3 = 0b101#3) : (decodeBranch c w).wf = true ∧ encode (decodeBranch c w) = w := by
  have hw := branchWord_of_fields hc hcls
  rw [decodeBranch]
  cases hl : w.getLsbD 24 <;> rw [hl] at hw <;> exact ⟨rfl, hw⟩

end Sys2Proof

namespace Sys2Proof.Claims

/-- Settles O1: by format; the data-processing formats go through their common operands. -/
theorem decodeOfEncodeIsIdentity : Obligations.DecodeOfEncodeIsIdentity := by
  unfold Obligations.DecodeOfEncodeIsIdentity
  intro i hwf
  rcases Machine.instr_cases i with ⟨d, hd⟩ | ⟨c, m, rfl⟩ | ⟨c, m, rfl⟩ | ⟨c, rn, rd, rfl⟩ | ⟨c, rn, rd, rfl⟩
  · exact decodeWord_encode_dp hd hwf
  · exact decodeWord_branchWord c false m
  · exact decodeWord_branchWord c true m
  · exact decodeWord_transferWord c true rn rd
  · exact decodeWord_transferWord c false rn rd

/-- Settles O2: by the class of the word; each accepted class determines every bit. -/
theorem encodeOfDecodeIsIdentity : Obligations.EncodeOfDecodeIsIdentity := by
  unfold Obligations.EncodeOfDecodeIsIdentity
  intro w i h
  obtain ⟨c, hc, h⟩ := (decodeWord_eq_ok_iff w i).mp h
  rcases (decodeClass_eq_ok_iff c w i).mp h with ⟨hcls, hb, h⟩ | ⟨hcls, h⟩ | ⟨hcls, h⟩ | ⟨hcls, rfl⟩
  · obtain ⟨-, hwf, henc⟩ := decodeDp_ok h
    exact ⟨hwf, henc.trans (dpWord_shiftedField hc hcls hb)⟩
  · obtain ⟨-, hwf, henc⟩ := decodeDp_ok h
    exact ⟨hwf, henc.trans (dpWord_immField hc hcls)⟩
  · exact decodeTransfer_ok hc hcls h
  · exact decodeBranch_ok hc hcls

end Sys2Proof.Claims

/-! PROOFS. The opcode table by the fields its rows fix: a row matches a word exactly when the word has those fields, so
the table can be held against the decoder, which reads the same fields (30_encoding.md R62, R63). -/

namespace Sys2Proof

/-! ### Words with fixed fields -/

/-- A field of a word that a row fixes: its lowest bit, its width and its value. -/
structure FixedField where
  lo : Nat
  width : Nat
  value : BitVec width

/-- The word has the field. -/
def FixedField.Holds (g : FixedField) (w : Word) : Prop := w.extractLsb' g.lo g.width = g.value

/-- The bits of the field. -/
def FixedField.mask (g : FixedField) : Word := (BitVec.allOnes g.width).setWidth 32 <<< g.lo

/-- The value at its place. -/
def FixedField.pattern (g : FixedField) : Word := g.value.setWidth 32 <<< g.lo

/-- The bits of all the fields. -/
def fieldsMask (gs : List FixedField) : Word := gs.foldr (fun g m => g.mask ||| m) 0#32

/-- The values of all the fields, each at its place. -/
def fieldsPattern (gs : List FixedField) : Word := gs.foldr (fun g p => g.pattern ||| p) 0#32

/-- The fields lie inside a word, and no two share a bit. -/
abbrev FieldsApart (gs : List FixedField) : Prop :=
  (∀ g ∈ gs, g.lo + g.width ≤ 32) ∧ gs.Pairwise fun g h => g.mask &&& h.mask = 0#32

theorem FixedField.getLsbD_mask (g : FixedField) (k : Nat) (hk : k < 32) :
    g.mask.getLsbD k = decide (g.lo ≤ k ∧ k < g.lo + g.width) := by
  simp [FixedField.mask, hk]
  grind

theorem FixedField.getLsbD_pattern (g : FixedField) (k : Nat) (hk : k < 32) :
    g.pattern.getLsbD k = (decide (g.lo ≤ k) && g.value.getLsbD (k - g.lo)) := by
  simp [FixedField.pattern, hk]
  grind

/-- A field's bits are its value exactly when the word has the field. -/
theorem FixedField.and_mask_eq_pattern_iff (g : FixedField) (w : Word) (hg : g.lo + g.width ≤ 32) :
    w &&& g.mask = g.pattern ↔ g.Holds w := by
  constructor
  · intro h
    refine BitVec.eq_of_getLsbD_eq fun k hk => ?_
    have := congrArg (·.getLsbD (g.lo + k)) h
    simpa [g.getLsbD_mask (g.lo + k) (by omega), g.getLsbD_pattern (g.lo + k) (by omega), hk] using this
  · intro h
    refine BitVec.eq_of_getLsbD_eq fun k hk => ?_
    rw [BitVec.getLsbD_and, g.getLsbD_mask k hk, g.getLsbD_pattern k hk, ← show _ = g.value from h]
    grind

theorem FixedField.pattern_and_mask (g : FixedField) : g.pattern &&& g.mask = g.pattern := by
  refine BitVec.eq_of_getLsbD_eq fun k hk => ?_
  rw [BitVec.getLsbD_and, g.getLsbD_mask k hk, g.getLsbD_pattern k hk]
  grind

/-- A comparison under two masks that share no bit is the two comparisons. -/
theorem and_or_eq_or_iff {w m n p q : Word} (hmn : m &&& n = 0#32) (hp : p &&& m = p) (hq : q &&& n = q) :
    w &&& (m ||| n) = p ||| q ↔ w &&& m = p ∧ w &&& n = q := by
  simp only [BitVec.eq_of_getLsbD_eq_iff, BitVec.getLsbD_and, BitVec.getLsbD_or, BitVec.getLsbD_zero] at *
  grind

theorem fieldsMask_cons (g : FixedField) (gs : List FixedField) : fieldsMask (g :: gs) = g.mask ||| fieldsMask gs := rfl

theorem fieldsPattern_cons (g : FixedField) (gs : List FixedField) :
    fieldsPattern (g :: gs) = g.pattern ||| fieldsPattern gs := rfl

theorem and_fieldsMask_eq_zero {m : Word} {gs : List FixedField} (h : ∀ g ∈ gs, m &&& g.mask = 0#32) :
    m &&& fieldsMask gs = 0#32 := by
  induction gs with
  | nil => exact BitVec.and_zero
  | cons g gs ih =>
    rw [fieldsMask_cons, BitVec.and_or_distrib_left, h g List.mem_cons_self,
      ih fun g' hg' => h g' (List.mem_cons_of_mem g hg'), BitVec.or_zero]

theorem fieldsPattern_and_fieldsMask (gs : List FixedField) :
    fieldsPattern gs &&& fieldsMask gs = fieldsPattern gs := by
  induction gs with
  | nil => exact BitVec.and_zero
  | cons g gs ih =>
    have hg := g.pattern_and_mask
    simp only [fieldsMask_cons, fieldsPattern_cons, BitVec.eq_of_getLsbD_eq_iff, BitVec.getLsbD_and,
      BitVec.getLsbD_or] at *
    grind

/-- A word has all the fields exactly when it agrees with their values under their mask. -/
theorem and_fieldsMask_eq_iff {gs : List FixedField} (h : FieldsApart gs) (w : Word) :
    w &&& fieldsMask gs = fieldsPattern gs ↔ ∀ g ∈ gs, g.Holds w := by
  obtain ⟨hin, hapart⟩ := h
  induction gs with
  | nil => simp [fieldsMask, fieldsPattern]
  | cons g gs ih =>
    obtain ⟨hg, hgs⟩ := List.pairwise_cons.mp hapart
    obtain ⟨hlt, hlts⟩ := List.forall_mem_cons.mp hin
    rw [fieldsMask_cons, fieldsPattern_cons,
      and_or_eq_or_iff (and_fieldsMask_eq_zero hg) g.pattern_and_mask (fieldsPattern_and_fieldsMask gs),
      g.and_mask_eq_pattern_iff w hlt, ih hlts hgs, List.forall_mem_cons]

/-! ### The rows of the table -/

/-- What names a row: a data-processing operation in one of its two formats, B or BL, STR or LDR. -/
inductive RowKey where
  | dpImm (op : DpOp)
  | dpReg (op : DpOp)
  | branch (l : Bool)
  | transfer (l : Bool)

/-- The mnemonic of a data-processing operation, as spec/opcode_table.json spells it. -/
def DpOp.mnemonic : DpOp → String
  | .and => "AND"
  | .eor => "EOR"
  | .sub => "SUB"
  | .rsb => "RSB"
  | .add => "ADD"
  | .adc => "ADC"
  | .sbc => "SBC"
  | .rsc => "RSC"
  | .tst => "TST"
  | .teq => "TEQ"
  | .cmp => "CMP"
  | .cmn => "CMN"
  | .orr => "ORR"
  | .mov => "MOV"
  | .bic => "BIC"
  | .mvn => "MVN"

def RowKey.mnemonic : RowKey → String
  | .dpImm op | .dpReg op => op.mnemonic
  | .branch l => if l then "BL" else "B"
  | .transfer l => if l then "LDR" else "STR"

/-- The fields that both data-processing rows of an operation fix (30_encoding.md R50 to R52). -/
def dpFixed (cls : BitVec 3) (op : DpOp) : List FixedField :=
  ⟨25, 3, cls⟩ :: ⟨21, 4, op.code⟩ ::
    ((if op.testOnly then [⟨20, 1, 1#1⟩, ⟨12, 4, 0#4⟩] else []) ++ if op.isMove then [⟨16, 4, 0#4⟩] else [])

/-- The fields a row fixes (30_encoding.md R48, R49, R55, R56). -/
def RowKey.fields : RowKey → List FixedField
  | .dpImm op => dpFixed 0b001#3 op
  | .dpReg op => ⟨4, 1, 0#1⟩ :: dpFixed 0b000#3 op
  | .branch l => [⟨25, 3, 0b101#3⟩, ⟨24, 1, BitVec.ofBool l⟩]
  | .transfer l => [⟨25, 3, 0b010#3⟩, ⟨21, 4, 0b1100#4⟩, ⟨20, 1, BitVec.ofBool l⟩, ⟨0, 12, 0#12⟩]

def RowKey.row (k : RowKey) : OpcodeRow := ⟨k.mnemonic, fieldsMask k.fields, fieldsPattern k.fields⟩

/-- The data-processing operations in the order of their numbers. -/
def allDpOps : List DpOp :=
  [.and, .eor, .sub, .rsb, .add, .adc, .sbc, .rsc, .tst, .teq, .cmp, .cmn, .orr, .mov, .bic, .mvn]

theorem mem_allDpOps (op : DpOp) : op ∈ allDpOps := by cases op <;> decide

/-- The keys in the order of the table. -/
def allRowKeys : List RowKey :=
  allDpOps.map RowKey.dpImm ++ allDpOps.map RowKey.dpReg ++
    [RowKey.branch false, RowKey.branch true, RowKey.transfer true, RowKey.transfer false]

/-- The table is the rows of the keys: each mask and pattern is made of the fields its row fixes. -/
theorem opcodeTable_eq : opcodeTable = allRowKeys.map RowKey.row := rfl

theorem mem_allRowKeys (k : RowKey) : k ∈ allRowKeys := by
  rcases k with op | op | l | l
  · simp [allRowKeys, mem_allDpOps]
  · simp [allRowKeys, mem_allDpOps]
  · cases l <;> simp [allRowKeys]
  · cases l <;> simp [allRowKeys]

theorem mem_opcodeTable_iff (r : OpcodeRow) : r ∈ opcodeTable ↔ ∃ k : RowKey, k.row = r := by
  simp [opcodeTable_eq, mem_allRowKeys]

theorem RowKey.fields_apart (k : RowKey) : FieldsApart k.fields := by
  rcases k with op | op | l | l
  · cases op <;> decide
  · cases op <;> decide
  · cases l <;> decide
  · cases l <;> decide

/-- A word is of a row exactly when it has the fields the row fixes. -/
theorem RowKey.matches_row_iff (k : RowKey) (w : Word) : k.row.matches w = true ↔ ∀ g ∈ k.fields, g.Holds w := by
  rw [OpcodeRow.matches, beq_iff_eq]
  exact and_fieldsMask_eq_iff k.fields_apart w

/-! ### The fields of a row as the decoder reads them -/

theorem extract_bit_eq_iff (w : Word) (k : Nat) (b : Bool) :
    w.extractLsb' k 1 = BitVec.ofBool b ↔ w.getLsbD k = b := by
  rw [← BitVec.toNat_inj, toNat_extract, BitVec.toNat_ofBool, Nat.pow_one, ← toNat_bit]
  cases w.getLsbD k <;> cases b <;> decide

theorem index4_eq_zero_iff (v : BitVec 4) : index4 v = 0 ↔ v = 0#4 := by revert v; decide

theorem dpOpOfCode_eq_iff (v : BitVec 4) (op : DpOp) : DpOp.ofCode v = op ↔ v = op.code :=
  ⟨fun h => h ▸ (code_dpOpOfCode v).symm, fun h => h ▸ dpOpOfCode_code op⟩

/-- The class and the four bits below it are the form that the decoder tests for class 010. -/
theorem transferForm_iff (w : Word) (hcls : w.extractLsb' 25 3 = 0b010#3) :
    w.extractLsb' 21 5 = 0b01100#5 ↔ w.extractLsb' 21 4 = 0b1100#4 := by
  have h := congrArg BitVec.toNat hcls
  simp only [← BitVec.toNat_inj, toNat_extract] at *
  simp at *
  omega

theorem dpFixed_hold_iff (cls : BitVec 3) (op : DpOp) (w : Word) (o : Operand2) :
    (∀ g ∈ dpFixed cls op, g.Holds w) ↔
      w.extractLsb' 25 3 = cls ∧ (dpFields w o).op = op ∧ (dpFields w o).FixedOk := by
  have hs : w.extractLsb' 20 1 = 1#1 ↔ w.getLsbD 20 = true := extract_bit_eq_iff w 20 true
  simp only [dpFixed, List.forall_mem_cons, FixedField.Holds, dpFields, DpFields.FixedOk, index4_eq_zero_iff,
    dpOpOfCode_eq_iff]
  refine and_congr_right fun _ => and_congr_right fun hop => ?_
  rw [(dpOpOfCode_eq_iff _ op).mpr hop]
  cases op.testOnly <;> cases op.isMove <;> simp [hs, and_assoc]

theorem dpImm_matches_iff (op : DpOp) (w : Word) : (RowKey.dpImm op).row.matches w = true ↔
    w.extractLsb' 25 3 = 0b001#3 ∧ (dpFields w (immField w)).op = op ∧ (dpFields w (immField w)).FixedOk := by
  rw [RowKey.matches_row_iff]
  exact dpFixed_hold_iff ..

theorem dpReg_matches_iff (op : DpOp) (w : Word) : (RowKey.dpReg op).row.matches w = true ↔
    w.getLsbD 4 = false ∧ w.extractLsb' 25 3 = 0b000#3 ∧ (dpFields w (shiftedField w)).op = op ∧
      (dpFields w (shiftedField w)).FixedOk := by
  rw [RowKey.matches_row_iff, RowKey.fields, List.forall_mem_cons, dpFixed_hold_iff]
  exact and_congr_left' (extract_bit_eq_iff w 4 false)

theorem branch_matches_iff (l : Bool) (w : Word) : (RowKey.branch l).row.matches w = true ↔
    w.extractLsb' 25 3 = 0b101#3 ∧ w.getLsbD 24 = l := by
  rw [RowKey.matches_row_iff]
  simp only [RowKey.fields, List.forall_mem_cons, FixedField.Holds, extract_bit_eq_iff]
  simp

theorem transfer_matches_iff (l : Bool) (w : Word) : (RowKey.transfer l).row.matches w = true ↔
    w.extractLsb' 25 3 = 0b010#3 ∧ w.extractLsb' 21 5 = 0b01100#5 ∧ w.getLsbD 20 = l ∧ w.extractLsb' 0 12 = 0#12 := by
  rw [RowKey.matches_row_iff]
  simp only [RowKey.fields, List.forall_mem_cons, FixedField.Holds, extract_bit_eq_iff]
  refine and_congr_right fun hcls => ?_
  simp [transferForm_iff w hcls]

/-! ### The row of a word -/

/-- The one row a word can be of, by its class bits and its operation or L bit. -/
def rowKeyOf (w : Word) : RowKey :=
  if w.extractLsb' 25 3 = 0b001#3 then .dpImm (DpOp.ofCode (w.extractLsb' 21 4))
  else if w.extractLsb' 25 3 = 0b000#3 then .dpReg (DpOp.ofCode (w.extractLsb' 21 4))
  else if w.extractLsb' 25 3 = 0b101#3 then .branch (w.getLsbD 24)
  else .transfer (w.getLsbD 20)

theorem eq_rowKeyOf_of_matches {k : RowKey} {w : Word} (h : k.row.matches w = true) : k = rowKeyOf w := by
  rcases k with op | op | l | l
  · obtain ⟨hcls, rfl, -⟩ := (dpImm_matches_iff op w).mp h
    simp [rowKeyOf, hcls, dpFields]
  · obtain ⟨-, hcls, rfl, -⟩ := (dpReg_matches_iff op w).mp h
    simp [rowKeyOf, hcls, dpFields]
  · obtain ⟨hcls, rfl⟩ := (branch_matches_iff l w).mp h
    simp [rowKeyOf, hcls]
  · obtain ⟨hcls, -, rfl, -⟩ := (transfer_matches_iff l w).mp h
    simp [rowKeyOf, hcls]

theorem mnemonic_of_dp? {i : Instr} {d : DpFields} (h : i.dp? = some d) : i.mnemonic = d.op.mnemonic := by
  cases i <;> cases h <;> rfl

end Sys2Proof

namespace Sys2Proof.Claims

open Sys2Proof.Machine

/-! ### The refused spaces in the decoder's fields -/

theorem index4_eq_fifteen_iff (v : BitVec 4) : index4 v = 15 ↔ v = 0b1111#4 := by revert v; decide

/-- A field inside a field is a field of the word. -/
theorem extract_extract (w : Word) {lo n a m : Nat} (h : a + m ≤ n) :
    (w.extractLsb' lo n).extractLsb' a m = w.extractLsb' (lo + a) m := by
  refine BitVec.eq_of_getLsbD_eq fun k hk => ?_
  simp only [BitVec.getLsbD_extractLsb', Nat.add_assoc]
  grind

/-- The data-processing classes by the upper two class bits. -/
theorem dpClass_iff (w : Word) :
    w.extractLsb' 26 2 = 0b00#2 ↔ w.extractLsb' 25 3 = 0b000#3 ∨ w.extractLsb' 25 3 = 0b001#3 := by
  have h : ∀ v : BitVec 3, v.extractLsb' 1 2 = 0b00#2 ↔ v = 0b000#3 ∨ v = 0b001#3 := by decide
  rw [← h, extract_extract w (by decide)]

/-- The test-only operations by the upper two opcode bits. -/
theorem testOnly_dpFields_iff (w : Word) (o : Operand2) :
    (dpFields w o).op.testOnly = true ↔ w.extractLsb' 23 2 = 0b10#2 := by
  have h : ∀ v : BitVec 4, (DpOp.ofCode v).testOnly = true ↔ v.extractLsb' 2 2 = 0b10#2 := by decide
  rw [dpFields, h, extract_extract w (by decide)]

theorem flagSettingPcWrite_iff (w : Word) (o : Operand2) : FlagSettingPcWrite w ↔
    (w.extractLsb' 25 3 = 0b000#3 ∨ w.extractLsb' 25 3 = 0b001#3) ∧ ¬ (dpFields w o).PcFormOk := by
  rw [FlagSettingPcWrite, dpClass_iff, Ne, ← testOnly_dpFields_iff w o, ← index4_eq_fifteen_iff]
  simp [DpFields.PcFormOk, dpFields, flagFormOk]

theorem cond_ne_reserved_iff (w : Word) :
    w.extractLsb' 28 4 ≠ 0b1111#4 ↔ ∃ c, Cond.ofCode (w.extractLsb' 28 4) = some c := by
  rw [Ne, ← condOfCode_none]
  exact Option.ne_none_iff_exists'

/-- The word of a decoded instruction is of a row with its mnemonic, and no form of R53. -/
theorem row_of_decodeClass {c : Cond} {w : Word} {i : Instr} (h : decodeClass c w = .ok i) :
    (∃ k : RowKey, k.row.matches w = true ∧ k.mnemonic = i.mnemonic) ∧ ¬ FlagSettingPcWrite w := by
  rcases (decodeClass_eq_ok_iff c w i).mp h with ⟨hcls, hb, h⟩ | ⟨hcls, h⟩ | ⟨hcls, h⟩ | ⟨hcls, rfl⟩
  · obtain ⟨hfix, hpc, -⟩ := (decodeDp_eq_ok_iff _ _ _).mp h
    rw [flagSettingPcWrite_iff w (shiftedField w)]
    exact ⟨⟨.dpReg _, (dpReg_matches_iff _ w).mpr ⟨hb, hcls, rfl, hfix⟩, (mnemonic_of_dp? (decodeDp_ok h).1).symm⟩,
      fun hnot => hnot.2 hpc⟩
  · obtain ⟨hfix, hpc, -⟩ := (decodeDp_eq_ok_iff _ _ _).mp h
    rw [flagSettingPcWrite_iff w (immField w)]
    exact ⟨⟨.dpImm _, (dpImm_matches_iff _ w).mpr ⟨hcls, rfl, hfix⟩, (mnemonic_of_dp? (decodeDp_ok h).1).symm⟩,
      fun hnot => hnot.2 hpc⟩
  · obtain ⟨hform, hlow, rfl⟩ := (decodeTransfer_eq_ok_iff _ _ _).mp h
    rw [flagSettingPcWrite_iff w (immField w), hcls]
    refine ⟨⟨.transfer (w.getLsbD 20), (transfer_matches_iff _ w).mpr ⟨hcls, hform, rfl, hlow⟩, ?_⟩, by simp⟩
    cases w.getLsbD 20 <;> rfl
  · rw [flagSettingPcWrite_iff w (immField w), hcls, decodeBranch]
    refine ⟨⟨.branch (w.getLsbD 24), (branch_matches_iff _ w).mpr ⟨hcls, rfl⟩, ?_⟩, by simp⟩
    cases w.getLsbD 24 <;> rfl

/-- A word of a row that is no form of R53 decodes to an instruction with the row's mnemonic. -/
theorem decodeClass_of_row (c : Cond) {w : Word} {k : RowKey} (hk : k.row.matches w = true)
    (hpc : ¬ FlagSettingPcWrite w) : ∃ i, decodeClass c w = .ok i ∧ i.mnemonic = k.mnemonic := by
  simp only [decodeClass_eq_ok_iff]
  rcases k with op | op | l | l
  · obtain ⟨hcls, rfl, hfix⟩ := (dpImm_matches_iff op w).mp hk
    rw [flagSettingPcWrite_iff w (immField w)] at hpc
    have h := (decodeDp_eq_ok_iff c _ _).mpr ⟨hfix, by_contra fun hn => hpc ⟨.inr hcls, hn⟩, rfl⟩
    exact ⟨_, .inr (.inl ⟨hcls, h⟩), mnemonic_of_dp? (decodeDp_ok h).1⟩
  · obtain ⟨hb, hcls, rfl, hfix⟩ := (dpReg_matches_iff op w).mp hk
    rw [flagSettingPcWrite_iff w (shiftedField w)] at hpc
    have h := (decodeDp_eq_ok_iff c _ _).mpr ⟨hfix, by_contra fun hn => hpc ⟨.inl hcls, hn⟩, rfl⟩
    exact ⟨_, .inl ⟨hcls, hb, h⟩, mnemonic_of_dp? (decodeDp_ok h).1⟩
  · obtain ⟨hcls, rfl⟩ := (branch_matches_iff l w).mp hk
    refine ⟨_, .inr (.inr (.inr ⟨hcls, rfl⟩)), ?_⟩
    rw [decodeBranch]
    cases w.getLsbD 24 <;> rfl
  · obtain ⟨hcls, hform, rfl, hlow⟩ := (transfer_matches_iff l w).mp hk
    refine ⟨_, .inr (.inr (.inl ⟨hcls, (decodeTransfer_eq_ok_iff ..).mpr ⟨hform, hlow, rfl⟩⟩)), ?_⟩
    cases w.getLsbD 20 <;> rfl

/-- Settles O3: row by row, the fields a row fixes are those the decoder tests. -/
theorem decoderAcceptsExactlyTheTable : Obligations.DecoderAcceptsExactlyTheTable := by
  unfold Obligations.DecoderAcceptsExactlyTheTable
  intro w m
  rw [cond_ne_reserved_iff]
  constructor
  · rintro ⟨i, h, rfl⟩
    obtain ⟨c, hc, h⟩ := (decodeWord_eq_ok_iff w i).mp h
    obtain ⟨⟨k, hk, hm⟩, hpc⟩ := row_of_decodeClass h
    exact ⟨⟨c, hc⟩, ⟨k.row, (mem_opcodeTable_iff _).mpr ⟨k, rfl⟩, hk, hm⟩, hpc⟩
  · rintro ⟨⟨c, hc⟩, ⟨r, hr, hmatch, rfl⟩, hpc⟩
    obtain ⟨k, rfl⟩ := (mem_opcodeTable_iff r).mp hr
    obtain ⟨i, h, hm⟩ := decodeClass_of_row c hmatch hpc
    exact ⟨i, (decodeWord_eq_ok_iff w i).mpr ⟨c, hc, h⟩, hm⟩

/-- A fetched word whose condition does not fail and that decodes to no instruction raises the one fault there is for
it: by condition 1111 before the decoder, or by the decoder (30_encoding.md R59, R62). -/
theorem step_of_not_decoded {s : State} {w : Word} (hfetch : FetchesArm s w) (he : s.evaluates w ≠ .fail)
    (hd : ∀ i, decodeWord w ≠ .ok i) : step s = .fault (.unsupportedInstruction s.pc w) := by
  obtain ⟨hm, hf⟩ := hfetch
  cases hev : s.evaluates w with
  | fail => exact absurd hev he
  | reserved => exact step_reserved s w hm hf hev
  | pass =>
    cases hdw : decodeWord w with
    | ok i => exact absurd hdw (hd i)
    | error e => exact step_undecodable s w e hm hf hev hdw

/-- Settles O4: the row that matches a word is a function of the word, and only a word of a row decodes. -/
theorem tableRowsAreDisjointAndUnmatchedWordsFault : Obligations.TableRowsAreDisjointAndUnmatchedWordsFault := by
  unfold Obligations.TableRowsAreDisjointAndUnmatchedWordsFault
  constructor
  · intro w p q hp hq hpw hqw
    obtain ⟨k, rfl⟩ := (mem_opcodeTable_iff p).mp hp
    obtain ⟨l, rfl⟩ := (mem_opcodeTable_iff q).mp hq
    rw [eq_rowKeyOf_of_matches hpw, eq_rowKeyOf_of_matches hqw]
  · intro s w hfetch he hnone
    refine step_of_not_decoded hfetch (by simp [he]) fun i hd => ?_
    obtain ⟨-, ⟨r, hr, hrw, -⟩, -⟩ := (decoderAcceptsExactlyTheTable w i.mnemonic).mp ⟨i, hd, rfl⟩
    simp [hnone r hr] at hrw

/-- MOV and MVN by their opcode fields. -/
theorem isMove_dpFields_iff (w : Word) (o : Operand2) : (dpFields w o).op.isMove = true ↔
    w.extractLsb' 21 4 = 0b1101#4 ∨ w.extractLsb' 21 4 = 0b1111#4 := by
  have h : ∀ v : BitVec 4, (DpOp.ofCode v).isMove = true ↔ v = 0b1101#4 ∨ v = 0b1111#4 := by decide
  exact h _

/-- The refused spaces, with the data-processing ones by the operands the decoder reads. -/
theorem outsideSubset_iff (w : Word) (o : Operand2) : OutsideSubset w ↔
    (w.extractLsb' 25 3 = 0b000#3 ∨ w.extractLsb' 25 3 = 0b001#3) ∧
        ¬ ((dpFields w o).FixedOk ∧ (dpFields w o).PcFormOk) ∨
      w.extractLsb' 25 3 = 0b000#3 ∧ w.getLsbD 4 = true ∨
      w.extractLsb' 25 3 = 0b010#3 ∧ (w.extractLsb' 21 5 ≠ 0b01100#5 ∨ w.extractLsb' 0 12 ≠ 0#12) ∨
      w.extractLsb' 25 3 = 0b011#3 ∨ w.extractLsb' 25 3 = 0b100#3 ∨ w.extractLsb' 25 3 = 0b110#3 ∨
      w.extractLsb' 25 3 = 0b111#3 ∨ w.extractLsb' 28 4 = 0b1111#4 := by
  have hrd : (dpFields w o).rd = 0 ↔ w.extractLsb' 12 4 = 0#4 := index4_eq_zero_iff _
  have hrn : (dpFields w o).rn = 0 ↔ w.extractLsb' 16 4 = 0#4 := index4_eq_zero_iff _
  have hs : (dpFields w o).setFlags = w.getLsbD 20 := rfl
  rw [OutsideSubset, flagSettingPcWrite_iff w o, dpClass_iff, ← testOnly_dpFields_iff w o, ← isMove_dpFields_iff w o,
    DpFields.FixedOk, hrd, hrn, hs]
  grind

/-- The refused spaces hold no word that decodes. -/
theorem not_outsideSubset_of_decode {w : Word} {i : Instr} (hd : decodeWord w = .ok i) : ¬ OutsideSubset w := by
  obtain ⟨c, hc, h⟩ := (decodeWord_eq_ok_iff w i).mp hd
  have hcond := (cond_ne_reserved_iff w).mpr ⟨c, hc⟩
  rcases (decodeClass_eq_ok_iff c w i).mp h with ⟨hcls, hb, h⟩ | ⟨hcls, h⟩ | ⟨hcls, h⟩ | ⟨hcls, -⟩
  · obtain ⟨hfix, hpc, -⟩ := (decodeDp_eq_ok_iff _ _ _).mp h
    simp [outsideSubset_iff w (shiftedField w), hcls, hcond, hfix, hpc, -BitVec.getLsbD_eq_getElem, hb]
  · obtain ⟨hfix, hpc, -⟩ := (decodeDp_eq_ok_iff _ _ _).mp h
    simp [outsideSubset_iff w (immField w), hcls, hcond, hfix, hpc]
  · obtain ⟨hform, hlow, -⟩ := (decodeTransfer_eq_ok_iff _ _ _).mp h
    simp [outsideSubset_iff w (immField w), hcls, hcond, hform, hlow]
  · simp [outsideSubset_iff w (immField w), hcls, hcond]

/-- Settles O5: a word of a refused space does not decode, so the cycle raises the fault of an undecodable word. -/
theorem encodingsOutsideTheSubsetFault : Obligations.EncodingsOutsideTheSubsetFault := by
  unfold Obligations.EncodingsOutsideTheSubsetFault
  intro s w hfetch hout he
  exact step_of_not_decoded hfetch he fun i hd => not_outsideSubset_of_decode hd hout

end Sys2Proof.Claims

/-! PROOFS. What an instruction and a step can do to the state: one inversion lemma for each, and the frames and
invariants read off it (10_state.md R18, R24, R25; 20_memory.md R33; 45_execution_loop.md R120). -/

namespace Sys2Proof.Machine

/-! ### One instruction -/

/-- Every way an instruction can answer a next state: its condition failed, or it is one of the five kinds. -/
theorem exec_cases {i : Instr} {s t : State} (h : exec i s = .next t) :
    t = s ∨ (∃ d, i.dp? = some d ∧ t = dpNext d s) ∨
      (∃ c imm24, i = .b c imm24 ∧ t = s.setPc (s.branchTarget imm24)) ∨
      (∃ c imm24, i = .bl c imm24 ∧ t = (s.setReg 14 s.pc).setPc (s.branchTarget imm24)) ∨
      (∃ c rn rd, i = .ldr c rn rd ∧ dataAccessOk s.memSize (s.reg rn) = true ∧
        t = s.setReg rd (s.mem.readWord (s.reg rn).toNat)) ∨
      ∃ c rn rd, i = .str c rn rd ∧ s.passes c = true ∧ dataAccessOk s.memSize (s.reg rn) = true ∧
        t = { s with mem := s.mem.writeWord (s.reg rn).toNat (s.reg rd) } := by
  cases hp : s.passes i.cond with
  | false =>
    rw [exec_conditionFails i s hp] at h
    exact .inl (Host.Outcome.next.inj h).symm
  | true =>
    rcases exec_next i s t hp h with h | h | h | h | ⟨c, rn, rd, rfl, ha, ht⟩
    · exact .inr (.inl h)
    · exact .inr (.inr (.inl h))
    · exact .inr (.inr (.inr (.inl h)))
    · exact .inr (.inr (.inr (.inr (.inl h))))
    · exact .inr (.inr (.inr (.inr (.inr ⟨c, rn, rd, rfl, hp, ha, ht⟩))))

/-- No instruction writes the SPSR or the memory size. -/
theorem exec_spsr_memSize {i : Instr} {s t : State} (h : exec i s = .next t) :
    t.spsr = s.spsr ∧ t.memSize = s.memSize := by
  rcases exec_cases h with rfl | ⟨d, -, rfl⟩ | ⟨c, m, -, rfl⟩ | ⟨c, m, -, rfl⟩ | ⟨c, rn, rd, -, -, rfl⟩ |
    ⟨c, rn, rd, -, -, -, rfl⟩ <;> simp

/-- Only STR, and only when its condition passes, writes memory, at a word inside the extent. -/
theorem exec_mem {i : Instr} {s t : State} (h : exec i s = .next t) : t.mem = s.mem ∨
    ∃ c rn rd, i = .str c rn rd ∧ s.passes c = true ∧ dataAccessOk s.memSize (s.reg rn) = true ∧
      t.mem = s.mem.writeWord (s.reg rn).toNat (s.reg rd) := by
  rcases exec_cases h with rfl | ⟨d, -, rfl⟩ | ⟨c, m, -, rfl⟩ | ⟨c, m, -, rfl⟩ | ⟨c, rn, rd, -, -, rfl⟩ |
    ⟨c, rn, rd, hi, hp, ha, rfl⟩
  case inr.inr.inr.inr.inr => exact .inr ⟨c, rn, rd, hi, hp, ha, rfl⟩
  all_goals simp

/-- Only data processing writes the CPSR. -/
theorem exec_cpsr {i : Instr} {s t : State} (h : exec i s = .next t) :
    t.cpsr = s.cpsr ∨ ∃ d, i.dp? = some d ∧ t = dpNext d s := by
  rcases exec_cases h with rfl | hd | ⟨c, m, -, rfl⟩ | ⟨c, m, -, rfl⟩ | ⟨c, rn, rd, -, -, rfl⟩ |
    ⟨c, rn, rd, -, -, -, rfl⟩
  case inr.inl => exact .inr hd
  all_goals simp

theorem cpsr_dpNext_low (d : DpFields) (s : State) {k : Nat} (hk : k < 28) :
    (dpNext d s).cpsr.getLsbD k = s.cpsr.getLsbD k := by
  rw [cpsr_dpNext]
  split
  · exact withNzcv_low _ _ _ _ _ _ hk
  · rfl

/-- The status bits below the flags are kept by every instruction (10_state.md R19, R25). -/
theorem exec_cpsr_low {i : Instr} {s t : State} (h : exec i s = .next t) {k : Nat} (hk : k < 28) :
    t.cpsr.getLsbD k = s.cpsr.getLsbD k := by
  rcases exec_cpsr h with hc | ⟨d, -, rfl⟩
  · rw [hc]
  · exact cpsr_dpNext_low d s hk

/-- The mode is a status bit below the flags. -/
theorem mode_eq_of_cpsr_low {s t : State} (h : t.cpsr.getLsbD 5 = s.cpsr.getLsbD 5) : t.mode = s.mode := by
  rw [State.mode, State.mode, modeOfCpsr, modeOfCpsr, h]

theorem flagV_dpNext (d : DpFields) (s : State) :
    (dpNext d s).flagV = if d.setFlags then dpOverflow d s else s.flagV := by
  simp only [dpNext]
  cases d.setFlags <;> cases d.op.testOnly <;> simp

theorem dpOverflow_logical {d : DpFields} (h : aluGroup d.op = .logical) (s : State) : dpOverflow d s = s.flagV := by
  rw [dpOverflow, h, newOverflow]

/-! ### One step -/

/-- The advance leaves the flags alone, so a condition passes after it exactly when it did before. -/
@[simp] theorem passes_advance (s : State) (c : Cond) : s.advance.passes c = s.passes c := rfl

theorem pc_advance_arm {s : State} (hm : s.mode = .arm) : s.advance.pc = s.pc + 4#32 := by
  rw [pc_advance, hm]
  rfl

/-- The cycle's test on a word that decodes is the instruction's own (log entry 7). -/
theorem evaluates_eq_pass_iff {s : State} {w : Word} {i : Instr} (h : decodeWord w = .ok i) :
    s.evaluates w = .pass ↔ s.passes i.cond = true := by
  rw [evaluates_decoded s w i.cond (condField_of_decodeWord h)]
  cases s.passes i.cond <;> simp

/-- Every way a step can answer a next state: a failed condition only advances the PC, and a word that passes is the
instruction it decodes to, run after the advance. -/
theorem step_cases {s t : State} (h : step s = .next t) :
    t = s.advance ∨ ∃ i, decodeWord (s.mem.readWord s.pc.toNat) = .ok i ∧ s.passes i.cond = true ∧
      exec i s.advance = .next t := by
  obtain ⟨hm, w, hf, h⟩ := step_next s t h
  obtain ⟨-, -, rfl⟩ := fetch_ok_arm s w hm hf
  rcases h with ⟨-, rfl⟩ | ⟨he, i, hd, hx⟩
  · exact .inl rfl
  · exact .inr ⟨i, hd, (evaluates_eq_pass_iff hd).mp he, hx⟩

/-- A property that the advance and every instruction keep is kept by a step. -/
theorem step_keeps {P : State → State → Prop} {s t : State} (h : step s = .next t) (hadv : P s s.advance)
    (hexec : ∀ i u, exec i s.advance = .next u → P s u) : P s t := by
  rcases step_cases h with rfl | ⟨i, -, -, hx⟩
  · exact hadv
  · exact hexec i t hx

end Sys2Proof.Machine

namespace Sys2Proof.Claims

open Sys2Proof.Machine

/-- Settles O12: the condition gates every effect. -/
theorem execWithFailedConditionChangesNothing : Obligations.ExecWithFailedConditionChangesNothing := by
  unfold Obligations.ExecWithFailedConditionChangesNothing
  exact exec_conditionFails

/-- Settles O45: data processing alone writes the CPSR, through the flag updater. -/
theorem onlyFlagSettersWriteTheCpsr : Obligations.OnlyFlagSettersWriteTheCpsr := by
  unfold Obligations.OnlyFlagSettersWriteTheCpsr
  intro i s t h
  refine ⟨fun k hk => exec_cpsr_low h hk, ?_, ?_⟩
  · intro hf
    rcases exec_cpsr h with hc | ⟨d, hd, rfl⟩
    · exact hc
    · simp [cpsr_dpNext, hf d hd]
  · intro d hd hop
    rcases exec_cpsr h with hc | ⟨e, he, rfl⟩
    · rw [State.flagV, hc, State.flagV]
    · obtain rfl : e = d := by simpa [hd] using he.symm
      have hlog : aluGroup e.op = .logical := by revert hop; cases e.op <;> decide
      rw [flagV_dpNext, dpOverflow_logical hlog, ite_self]

/-- Settles O47: the one instruction that writes memory is an STR whose condition passes. -/
theorem onlyStrChangesMemory : Obligations.OnlyStrChangesMemory := by
  unfold Obligations.OnlyStrChangesMemory
  intro s t h hstr
  rcases step_cases h with rfl | ⟨i, hd, hp, hx⟩
  · rfl
  · rcases exec_mem hx with hm | ⟨c, rn, rd, rfl, hpc, -⟩
    · exact hm
    · simp [hstr c rn rd hd] at hpc

/-- Settles O50: the SPSR, the mode bit and the memory size are outside what any instruction writes. -/
theorem spsrModeAndMemorySizeNeverChange : Obligations.SpsrModeAndMemorySizeNeverChange := by
  unfold Obligations.SpsrModeAndMemorySizeNeverChange
  intro s t h
  refine step_keeps (P := fun s t => t.spsr = s.spsr ∧ t.mode = s.mode ∧ t.memSize = s.memSize) h ⟨rfl, rfl, rfl⟩ ?_
  intro i u hx
  obtain ⟨hs, hz⟩ := exec_spsr_memSize hx
  exact ⟨hs, mode_eq_of_cpsr_low (exec_cpsr_low hx (by decide)), hz⟩

/-- Settles O52: memory changes only by a word store inside the extent, and the reserved status bits not at all. -/
theorem stepKeepsTheStateLegal : Obligations.StepKeepsTheStateLegal := by
  unfold Obligations.StepKeepsTheStateLegal
  intro s t hs h
  have hadv : s.advance.Legal := ⟨hs.memCanonical, hs.memInExtent, hs.sizePositive, hs.sizeBounded, hs.reservedZero⟩
  refine step_keeps (P := fun _ t => t.Legal) h hadv fun i u hx => ?_
  obtain ⟨-, hz⟩ := exec_spsr_memSize hx
  have hreserved : u.cpsr &&& 0x0FFFFFDF#32 = 0#32 := by
    rw [reservedZero_iff]
    intro k hk h5
    rw [exec_cpsr_low hx hk]
    exact (reservedZero_iff _).mp hadv.reservedZero k hk h5
  have hmem : u.mem.wf ∧ ∀ cell ∈ u.mem, cell.1 < s.advance.memSize := by
    rcases exec_mem hx with hm | ⟨c, rn, rd, -, -, ha, hm⟩ <;> rw [hm]
    · exact ⟨hadv.memCanonical, hadv.memInExtent⟩
    · obtain ⟨-, hin⟩ := (dataAccessOk_iff _ _).mp ha
      exact ⟨wf_writeWord _ _ _ hadv.memCanonical, inExtent_writeWord _ _ _ _ hadv.memInExtent hin⟩
  exact ⟨hmem.1, hz ▸ hmem.2, hz ▸ hadv.sizePositive, hz ▸ hadv.sizeBounded, hreserved⟩

end Sys2Proof.Claims

/-! PROOFS. Which registers a cycle writes, when the PC jumps, and that the SPSR is held and never read
(10_state.md R17, R18, R24; 45_execution_loop.md R120). -/

namespace Sys2Proof.Machine

/-! ### The SPSR -/

/-- The same state with another SPSR. -/
def State.withSpsr (s : State) (v : Word) : State := { s with spsr := v }

@[simp] theorem passes_withSpsr (s : State) (v : Word) (c : Cond) : (s.withSpsr v).passes c = s.passes c := rfl

/-- Data processing carries the SPSR along. -/
theorem dpNext_withSpsr (d : DpFields) (s : State) (v : Word) : dpNext d (s.withSpsr v) = (dpNext d s).withSpsr v := by
  have hout : dpOut d (s.withSpsr v) = dpOut d s := by
    obtain ⟨op, f, rn, rd, _ | _⟩ := d <;> rfl
  simp only [dpNext, dpOverflow, hout]
  cases d.setFlags <;> cases d.op.testOnly <;> rfl

end Sys2Proof.Machine

namespace Sys2Proof.Claims

open Sys2Proof.Machine

theorem sameButSpsr_next (v : Word) (t : State) : SameButSpsr v (.next t) (.next (t.withSpsr v)) := rfl
theorem sameButSpsr_fault (v : Word) (e : Fault) : SameButSpsr v (.fault e) (.fault e) := rfl

/-- An instruction neither reads the SPSR nor writes it (10_state.md R24). -/
theorem exec_sameButSpsr (i : Instr) (s : State) (v : Word) :
    SameButSpsr v (exec i s) (exec i (s.withSpsr v)) := by
  cases hp : s.passes i.cond with
  | false =>
    rw [exec_conditionFails i s hp, exec_conditionFails i (s.withSpsr v) hp]
    exact sameButSpsr_next v s
  | true =>
    rcases instr_cases i with ⟨d, hd⟩ | ⟨c, m, rfl⟩ | ⟨c, m, rfl⟩ | ⟨c, rn, rd, rfl⟩ | ⟨c, rn, rd, rfl⟩
    · rw [exec_dp i d s hd, exec_dp i d _ hd, passes_withSpsr, hp, dpNext_withSpsr]
      exact sameButSpsr_next v _
    · rw [exec_b c m s hp, exec_b c m (s.withSpsr v) hp]
      exact sameButSpsr_next v _
    · rw [exec_bl c m s hp, exec_bl c m (s.withSpsr v) hp]
      exact sameButSpsr_next v _
    · cases ha : dataAccessOk s.memSize (s.reg rn) with
      | false =>
        rw [exec_ldr_fault c rn rd s hp ha, exec_ldr_fault c rn rd (s.withSpsr v) hp ha]
        exact sameButSpsr_fault v _
      | true =>
        rw [exec_ldr_ok c rn rd s hp ha, exec_ldr_ok c rn rd (s.withSpsr v) hp ha]
        exact sameButSpsr_next v _
    · cases ha : dataAccessOk s.memSize (s.reg rn) with
      | false =>
        rw [exec_str_fault c rn rd s hp ha, exec_str_fault c rn rd (s.withSpsr v) hp ha]
        exact sameButSpsr_fault v _
      | true =>
        rw [exec_str_ok c rn rd s hp ha, exec_str_ok c rn rd (s.withSpsr v) hp ha]
        exact sameButSpsr_next v _

/-- Settles O51: every check of the cycle reads the same fields in both states, and so does the instruction it runs. -/
theorem spsrNeverInfluencesAStep : Obligations.SpsrNeverInfluencesAStep := by
  unfold Obligations.SpsrNeverInfluencesAStep
  intro s v
  change SameButSpsr v (step s) (step (s.withSpsr v))
  cases hf : s.fetch with
  | error e =>
    rw [step_fetchFault s e hf, step_fetchFault (s.withSpsr v) e hf]
    exact sameButSpsr_fault v e
  | ok w =>
    cases hm : s.mode with
    | reduced =>
      rw [step_reduced s w hm hf, step_reduced (s.withSpsr v) w hm hf]
      exact sameButSpsr_fault v _
    | arm =>
      cases he : s.evaluates w with
      | reserved =>
        rw [step_reserved s w hm hf he, step_reserved (s.withSpsr v) w hm hf he]
        exact sameButSpsr_fault v _
      | fail =>
        rw [step_fail s w hm hf he, step_fail (s.withSpsr v) w hm hf he]
        exact sameButSpsr_next v _
      | pass =>
        cases hd : decodeWord w with
        | error e =>
          rw [step_undecodable s w e hm hf he hd, step_undecodable (s.withSpsr v) w e hm hf he hd]
          exact sameButSpsr_fault v _
        | ok i =>
          rw [step_decoded s w i hm hf he hd, step_decoded (s.withSpsr v) w i hm hf he hd]
          exact exec_sameButSpsr i s.advance v

/-! ### The registers -/

theorem testOnly_eq_false_iff (op : DpOp) : op.testOnly = false ↔ op ∉ [DpOp.tst, .teq, .cmp, .cmn] := by
  rw [← testOnly_eq_true_iff, Bool.not_eq_true]

/-- Settles O48: by the five kinds of instruction; each writes the register its row names, BL the PC beside x[14]. -/
theorem cycleWritesAtMostOneRegisterBesideThePc : Obligations.CycleWritesAtMostOneRegisterBesideThePc := by
  unfold Obligations.CycleWritesAtMostOneRegisterBesideThePc
  intro i s t h r hr
  rcases exec_cases h with rfl | ⟨d, hd, rfl⟩ | ⟨c, m, rfl, rfl⟩ | ⟨c, m, rfl, rfl⟩ | ⟨c, rn, rd, rfl, -, rfl⟩ |
    ⟨c, rn, rd, -, -, -, rfl⟩
  · exact absurd rfl hr
  · rw [reg_dpNext] at hr
    obtain ⟨htest, rfl⟩ := (ite_ne_right_iff.mp hr).1
    exact .inl ⟨d, hd, (testOnly_eq_false_iff _).mp htest, rfl⟩
  · rw [reg_setPc] at hr
    exact .inr (.inr (.inr ⟨c, m, rfl, (ite_ne_right_iff.mp hr).1⟩))
  · rw [reg_setPc, reg_setReg] at hr
    refine .inr (.inr (.inl ⟨c, m, rfl, ?_⟩))
    grind
  · rw [reg_setReg] at hr
    obtain rfl := (ite_ne_right_iff.mp hr).1
    exact .inr (.inl ⟨c, rn, rfl⟩)
  · exact absurd (reg_withMem ..) hr

/-- Settles O49: the writes of register 15 among the writes of O48, and R53 for the flag-setting ones. -/
theorem pcMovesByFourUnlessTheInstructionJumps : Obligations.PcMovesByFourUnlessTheInstructionJumps := by
  unfold Obligations.PcMovesByFourUnlessTheInstructionJumps
  intro s t h hpc
  have hadv : s.advance.pc = s.pc + 4#32 := pc_advance_arm (step_next s t h).1
  rcases step_cases h with rfl | ⟨i, hd, hp, hx⟩
  · exact absurd hadv hpc
  · refine ⟨i, hd, hp, ?_⟩
    rcases cycleWritesAtMostOneRegisterBesideThePc i _ t hx 15 (show t.pc ≠ s.advance.pc by rwa [hadv]) with
      ⟨d, hdp, hop, hrd⟩ | hldr | ⟨c, m, rfl, -⟩ | ⟨c, m, rfl, -⟩
    · have hform := (wf_iff_pcFormOk hdp).mp (encodeOfDecodeIsIdentity _ i hd).1 ((testOnly_eq_false_iff _).mpr hop)
      exact .inr (.inr (.inr ⟨d, hdp, hrd.symm, by simpa [flagFormOk, ← hrd] using hform, hop⟩))
    · exact .inr (.inr (.inl hldr))
    · exact .inr (.inl ⟨c, m, rfl⟩)
    · exact .inl ⟨c, m, rfl⟩

end Sys2Proof.Claims

/-! PROOFS. The ALU as one equation per operation, and each data-processing instruction from its equation and the one
frame that all of them share (42_data_processing.md R79 to R103). -/

namespace Sys2Proof.Machine

open Sys2Proof.Claims

/-! ### The adder (42_data_processing.md R81, R82) -/

/-- The adder on two words: the wrapped sum, the unsigned carry and the signed overflow of the exact sum. -/
theorem addWithCarry_eq (a b : Word) (c : Bool) : addWithCarry a b c =
    ⟨a + b + (if c then 1#32 else 0#32), decide (2 ^ 32 ≤ a.toNat + b.toNat + c.toNat),
      outside (a.toInt + b.toInt + (c.toNat : Int))⟩ :=
  congrArg (AluOut.mk · _ _) (addWithCarry_result a b c)

/-- The adder on a complement: the wrapped difference less the borrow, and the exact differences' carry and overflow. -/
theorem addWithCarry_not_eq (a b : Word) (c : Bool) : addWithCarry a (~~~b) c =
    ⟨a - b - (if c then 0#32 else 1#32), decide (0 ≤ (a.toNat : Int) - b.toNat - (1 - (c.toNat : Int))),
      outside (a.toInt - b.toInt - (1 - (c.toNat : Int)))⟩ := by
  rw [outside, ← addWithCarry_not_result, ← addWithCarry_not_carry, ← addWithCarry_not_overflow]

theorem addWithCarry_false_eq (a b : Word) : addWithCarry a b false =
    ⟨a + b, decide (2 ^ 32 ≤ a.toNat + b.toNat), outside (a.toInt + b.toInt)⟩ := by
  simp [addWithCarry_eq]

theorem addWithCarry_not_true_eq (a b : Word) : addWithCarry a (~~~b) true =
    ⟨a - b, decide (b.toNat ≤ a.toNat), outside (a.toInt - b.toInt)⟩ := by
  simp [addWithCarry_not_eq]

/-- The sign of a word as a number. -/
theorem getLsbD_31_eq (v : Word) : v.getLsbD 31 = decide (2 ^ 31 ≤ v.toNat) := by
  rw [getLsbD_eq_div, decide_eq_decide]
  have := v.isLt
  omega

/-- Result and carry together are the exact unsigned sum. -/
theorem addWithCarry_result_add_carry (a b : Word) (c : Bool) : (addWithCarry a b c).result.toNat +
    2 ^ 32 * (addWithCarry a b c).carryOut.toNat = a.toNat + b.toNat + c.toNat := by
  have := a.isLt
  have := b.isLt
  have := c.toNat_le
  simp only [addWithCarry, BitVec.toNat_ofNat]
  by_cases h : 2 ^ 32 ≤ a.toNat + b.toNat + c.toNat
  · rw [decide_eq_true h, Bool.toNat_true]
    omega
  · rw [decide_eq_false h, Bool.toNat_false]
    omega

/-- Overflow by the signs: two operands of one sign and a result of the other. -/
theorem addWithCarry_overflow_eq_signs (a b : Word) (c : Bool) : (addWithCarry a b c).overflowOut =
    (a.getLsbD 31 == b.getLsbD 31 && (addWithCarry a b c).result.getLsbD 31 != a.getLsbD 31) := by
  have := a.isLt
  have := b.isLt
  have := c.toNat_le
  have : (addWithCarry a b c).result.toNat = (a.toNat + b.toNat + c.toNat) % 2 ^ 32 := BitVec.toNat_ofNat ..
  simp only [getLsbD_31_eq, this]
  rw [Bool.eq_iff_iff]
  simp only [addWithCarry, decide_eq_true_eq, Bool.and_eq_true, beq_iff_eq, bne_iff_ne, Ne, decide_eq_decide]
  simp only [BitVec.toInt_eq_toNat_cond]
  split <;> split <;> omega

/-! ### The shifter -/

theorem shift_lsl_of_ne_zero (v : Word) {n : Fin 32} (c : Bool) (hn : n ≠ 0) :
    shift v .lsl n c = ⟨v <<< n.val, v.getLsbD (32 - n.val)⟩ := if_neg (Fin.val_ne_zero_iff.mpr hn)

theorem rotateRight_zero (v : Word) : rotateRight v 0 = v := by
  refine BitVec.eq_of_getLsbD_eq fun k hk => ?_
  rw [rotateRight_getLsbD v 0 k (by decide) hk, Nat.add_zero, Nat.mod_eq_of_lt hk]

end Sys2Proof.Machine

namespace Sys2Proof.Claims

open Sys2Proof.Machine

/-- Settles O38: the carry is the part of the exact sum above 2^32; the overflow by range and by signs. -/
theorem adderCarryAndOverflowAreExact : Obligations.AdderCarryAndOverflowAreExact := by
  unfold Obligations.AdderCarryAndOverflowAreExact
  exact fun a b c => ⟨addWithCarry_result_add_carry a b c, rfl, addWithCarry_overflow_eq_signs a b c⟩

/-- Settles O39: the two results are the wrapped sum and the wrapped difference. -/
theorem subUndoesAdd : Obligations.SubUndoesAdd := by
  unfold Obligations.SubUndoesAdd
  intro a b cin sc v
  simp only [alu, addWithCarry_false_eq, addWithCarry_not_true_eq]
  exact ⟨BitVec.add_sub_cancel a b, BitVec.sub_add_cancel a b⟩

/-- Settles O37: each logical operation is a row of the ALU's table. -/
theorem logicalGroupPassesTheShifterCarry : Obligations.LogicalGroupPassesTheShifterCarry := by
  unfold Obligations.LogicalGroupPassesTheShifterCarry
  exact fun a b cin sc v => ⟨rfl, rfl, rfl, rfl, rfl, rfl, rfl, rfl⟩

/-! ### The frame that all data-processing instructions share -/

/-- The flags after a flag-setting data-processing instruction are those of the ALU's outputs. -/
theorem hasFlags_dpNext {d : DpFields} (hf : d.setFlags = true) (s : State) :
    HasFlags (dpNext d s) (dpOut d s).result (dpOut d s).carryOut (dpOut d s).overflowOut := by
  rw [← dpOverflow_eq_overflowOut]
  simp only [dpNext, hf, if_true]
  exact ⟨flagN_setNzcv .., flagZ_setNzcv .., flagC_setNzcv .., flagV_setNzcv ..⟩

/-- A data-processing instruction that writes a register: Rd gets the ALU's result, the flags its outputs if S is set,
and nothing else changes (42_data_processing.md R85, R87). -/
theorem writes_dp {i : Instr} {d : DpFields} {s : State} {res : Word} {carry overflow : Bool}
    (hd : i.dp? = some d) (ht : d.op.testOnly = false) (hp : s.passes i.cond = true)
    (hout : dpOut d s = ⟨res, carry, overflow⟩) : Writes i s d.rd d.setFlags res carry overflow := by
  refine ⟨dpNext d s, by rw [exec_dp i d s hd, if_pos hp], ?_, fun r hr => ?_, fun hf => ?_, fun hf => ?_, ?_⟩
  · simp [reg_dpNext, ht, hout]
  · simp [reg_dpNext, hr]
  · have hflags := hasFlags_dpNext hf s
    rw [hout] at hflags
    exact ⟨hflags, fun k hk => cpsr_dpNext_low d s hk⟩
  · simp [cpsr_dpNext, hf]
  · exact ⟨spsr_dpNext d s, memSize_dpNext d s, fun a => by rw [mem_dpNext]⟩

/-- A test-only instruction with its ALU outputs named. -/
theorem setsFlags_dp {i : Instr} {d : DpFields} {s : State} {res : Word} {carry overflow : Bool}
    (hd : i.dp? = some d) (ht : d.op.testOnly = true) (hp : s.passes i.cond = true)
    (hout : dpOut d s = ⟨res, carry, overflow⟩) : SetsFlags i s res carry overflow := by
  have h := setsFlags_of_testOnly hd ht hp
  rwa [hout] at h

theorem bothForms_imp {mkImm : Fin 16 → Byte → Instr} {mkReg : Fin 32 → ShiftKind → Reg → Instr}
    {p q : Instr → Operand2 → Prop} (h : BothForms mkImm mkReg p) (hpq : ∀ i o, p i o → q i o) :
    BothForms mkImm mkReg q :=
  ⟨fun rot imm8 => hpq _ _ (h.1 rot imm8), fun shamt kind rm => hpq _ _ (h.2 shamt kind rm)⟩

/-- Both forms of an operation have these operands, but for operand 2, and this condition. -/
def DpForms (mkImm : Fin 16 → Byte → Instr) (mkReg : Fin 32 → ShiftKind → Reg → Instr) (c : Cond) (op : DpOp)
    (f : Bool) (rn rd : Reg) : Prop :=
  BothForms mkImm mkReg fun i o => i.dp? = some ⟨op, f, rn, rd, o⟩ ∧ i.cond = c

section
variable {mkImm : Fin 16 → Byte → Instr} {mkReg : Fin 32 → ShiftKind → Reg → Instr} {c : Cond} {f : Bool}
  {rn rd : Reg} {s : State} {res : Operand2 → Word} {carry overflow : Operand2 → Bool}

/-- The two forms of an operation that writes a register, from the operation's row in the ALU's table. -/
theorem bothForms_writes (op : DpOp) (hforms : DpForms mkImm mkReg c op f rn rd) (ht : op.testOnly = false)
    (hp : s.passes c = true) (hout : ∀ o, alu op (s.reg rn) (s.op2Value o) s.flagC (s.op2Carry o) s.flagV =
      ⟨res o, carry o, overflow o⟩) :
    BothForms mkImm mkReg fun i o => Writes i s rd f (res o) (carry o) (overflow o) :=
  bothForms_imp hforms fun _ o ⟨hd, hc⟩ => writes_dp hd ht (hc ▸ hp) (hout o)

/-- The two forms of a test-only operation, from the operation's row in the ALU's table. -/
theorem bothForms_setsFlags (op : DpOp) (hforms : DpForms mkImm mkReg c op f rn rd) (ht : op.testOnly = true)
    (hp : s.passes c = true) (hout : ∀ o, alu op (s.reg rn) (s.op2Value o) s.flagC (s.op2Carry o) s.flagV =
      ⟨res o, carry o, overflow o⟩) :
    BothForms mkImm mkReg fun i o => SetsFlags i s (res o) (carry o) (overflow o) :=
  bothForms_imp hforms fun _ o ⟨hd, hc⟩ => setsFlags_dp hd ht (hc ▸ hp) (hout o)

end

/-! ### The logical group (42_data_processing.md R80) -/

/-- Settles O16: the ALU's row for AND. -/
theorem andWritesTheConjunction : Obligations.AndWritesTheConjunction := by
  unfold Obligations.AndWritesTheConjunction
  intro c f rn rd s hp _
  exact bothForms_writes .and ⟨fun _ _ => ⟨rfl, rfl⟩, fun _ _ _ => ⟨rfl, rfl⟩⟩ rfl hp fun _ => rfl

/-- Settles O17: the ALU's row for EOR. -/
theorem eorWritesTheExclusiveOr : Obligations.EorWritesTheExclusiveOr := by
  unfold Obligations.EorWritesTheExclusiveOr
  intro c f rn rd s hp _
  exact bothForms_writes .eor ⟨fun _ _ => ⟨rfl, rfl⟩, fun _ _ _ => ⟨rfl, rfl⟩⟩ rfl hp fun _ => rfl

/-- Settles O28: the ALU's row for ORR. -/
theorem orrWritesTheDisjunction : Obligations.OrrWritesTheDisjunction := by
  unfold Obligations.OrrWritesTheDisjunction
  intro c f rn rd s hp _
  exact bothForms_writes .orr ⟨fun _ _ => ⟨rfl, rfl⟩, fun _ _ _ => ⟨rfl, rfl⟩⟩ rfl hp fun _ => rfl

/-- Settles O29: the ALU's row for MOV, which does not read Rn. -/
theorem movWritesOperandTwo : Obligations.MovWritesOperandTwo := by
  unfold Obligations.MovWritesOperandTwo
  intro c f rd s hp _
  exact bothForms_writes .mov ⟨fun _ _ => ⟨rfl, rfl⟩, fun _ _ _ => ⟨rfl, rfl⟩⟩ rfl hp fun _ => rfl

/-- Settles O30: the ALU's row for BIC. -/
theorem bicWritesTheMaskedValue : Obligations.BicWritesTheMaskedValue := by
  unfold Obligations.BicWritesTheMaskedValue
  intro c f rn rd s hp _
  exact bothForms_writes .bic ⟨fun _ _ => ⟨rfl, rfl⟩, fun _ _ _ => ⟨rfl, rfl⟩⟩ rfl hp fun _ => rfl

/-- Settles O31: the ALU's row for MVN, which does not read Rn. -/
theorem mvnWritesTheComplement : Obligations.MvnWritesTheComplement := by
  unfold Obligations.MvnWritesTheComplement
  intro c f rd s hp _
  exact bothForms_writes .mvn ⟨fun _ _ => ⟨rfl, rfl⟩, fun _ _ _ => ⟨rfl, rfl⟩⟩ rfl hp fun _ => rfl

/-- Settles O24: the ALU's row for TST. -/
theorem tstSetsFlagsOfTheConjunction : Obligations.TstSetsFlagsOfTheConjunction := by
  unfold Obligations.TstSetsFlagsOfTheConjunction
  intro c rn s hp
  exact bothForms_setsFlags .tst ⟨fun _ _ => ⟨rfl, rfl⟩, fun _ _ _ => ⟨rfl, rfl⟩⟩ rfl hp fun _ => rfl

/-- Settles O25: the ALU's row for TEQ. -/
theorem teqSetsFlagsOfTheExclusiveOr : Obligations.TeqSetsFlagsOfTheExclusiveOr := by
  unfold Obligations.TeqSetsFlagsOfTheExclusiveOr
  intro c rn s hp
  exact bothForms_setsFlags .teq ⟨fun _ _ => ⟨rfl, rfl⟩, fun _ _ _ => ⟨rfl, rfl⟩⟩ rfl hp fun _ => rfl

/-! ### The arithmetic group (42_data_processing.md R82) -/

/-- Settles O18: the adder on Rn and the complement of operand 2, with a carry in. -/
theorem subWritesTheDifference : Obligations.SubWritesTheDifference := by
  unfold Obligations.SubWritesTheDifference
  intro c f rn rd s hp _
  exact bothForms_writes .sub ⟨fun _ _ => ⟨rfl, rfl⟩, fun _ _ _ => ⟨rfl, rfl⟩⟩ rfl hp
    fun _ => addWithCarry_not_true_eq ..

/-- Settles O19: the adder on operand 2 and the complement of Rn, with a carry in. -/
theorem rsbWritesTheReverseDifference : Obligations.RsbWritesTheReverseDifference := by
  unfold Obligations.RsbWritesTheReverseDifference
  intro c f rn rd s hp _
  exact bothForms_writes .rsb ⟨fun _ _ => ⟨rfl, rfl⟩, fun _ _ _ => ⟨rfl, rfl⟩⟩ rfl hp
    fun _ => addWithCarry_not_true_eq ..

/-- Settles O20: the adder on Rn and operand 2, without a carry in. -/
theorem addWritesTheSum : Obligations.AddWritesTheSum := by
  unfold Obligations.AddWritesTheSum
  intro c f rn rd s hp _
  exact bothForms_writes .add ⟨fun _ _ => ⟨rfl, rfl⟩, fun _ _ _ => ⟨rfl, rfl⟩⟩ rfl hp
    fun _ => addWithCarry_false_eq ..

/-- Settles O21: the adder on Rn and operand 2, with C as the carry in. -/
theorem adcWritesTheSumWithCarry : Obligations.AdcWritesTheSumWithCarry := by
  unfold Obligations.AdcWritesTheSumWithCarry
  intro c f rn rd s hp _
  exact bothForms_writes .adc ⟨fun _ _ => ⟨rfl, rfl⟩, fun _ _ _ => ⟨rfl, rfl⟩⟩ rfl hp
    fun _ => addWithCarry_eq ..

/-- Settles O22: the adder on Rn and the complement of operand 2, with C as the carry in. -/
theorem sbcWritesTheDifferenceWithBorrow : Obligations.SbcWritesTheDifferenceWithBorrow := by
  unfold Obligations.SbcWritesTheDifferenceWithBorrow
  intro c f rn rd s hp _
  exact bothForms_writes .sbc ⟨fun _ _ => ⟨rfl, rfl⟩, fun _ _ _ => ⟨rfl, rfl⟩⟩ rfl hp
    fun _ => addWithCarry_not_eq ..

/-- Settles O23: the adder on operand 2 and the complement of Rn, with C as the carry in. -/
theorem rscWritesTheReverseDifferenceWithBorrow : Obligations.RscWritesTheReverseDifferenceWithBorrow := by
  unfold Obligations.RscWritesTheReverseDifferenceWithBorrow
  intro c f rn rd s hp _
  exact bothForms_writes .rsc ⟨fun _ _ => ⟨rfl, rfl⟩, fun _ _ _ => ⟨rfl, rfl⟩⟩ rfl hp
    fun _ => addWithCarry_not_eq ..

/-- Settles O26: the flags of SUB without its register. -/
theorem cmpSetsFlagsOfTheDifference : Obligations.CmpSetsFlagsOfTheDifference := by
  unfold Obligations.CmpSetsFlagsOfTheDifference
  intro c rn s hp
  exact bothForms_setsFlags .cmp ⟨fun _ _ => ⟨rfl, rfl⟩, fun _ _ _ => ⟨rfl, rfl⟩⟩ rfl hp
    fun _ => addWithCarry_not_true_eq ..

/-- Settles O27: the flags of ADD without its register. -/
theorem cmnSetsFlagsOfTheSum : Obligations.CmnSetsFlagsOfTheSum := by
  unfold Obligations.CmnSetsFlagsOfTheSum
  intro c rn s hp
  exact bothForms_setsFlags .cmn ⟨fun _ _ => ⟨rfl, rfl⟩, fun _ _ _ => ⟨rfl, rfl⟩⟩ rfl hp
    fun _ => addWithCarry_false_eq ..

/-! ### Operand 2 (41_shifter.md) -/

/-- Settles O40: the amount 0, then the shift by 1 to 31 as a product. -/
theorem lslShiftsLeft : Obligations.LslShiftsLeft := by
  unfold Obligations.LslShiftsLeft
  intro v n c
  constructor
  · rintro rfl
    rfl
  · intro hn
    rw [shift_lsl_of_ne_zero v c hn]
    exact ⟨by rw [BitVec.toNat_shiftLeft, Nat.shiftLeft_eq], rfl⟩

/-- Settles O44: the bits of the rotation; a rotation by 0 is the immediate itself. -/
theorem immediateOperandIsRotated : Obligations.ImmediateOperandIsRotated := by
  unfold Obligations.ImmediateOperandIsRotated
  intro rot imm8 s
  refine ⟨fun k hk => rotateRight_getLsbD _ _ k (by omega) hk, ?_, fun hrot => if_neg hrot⟩
  rintro rfl
  exact ⟨rotateRight_zero _, rfl⟩

/-- Settles O60: operand 2 is read through the shifter, with the C flag of the CPSR. -/
theorem registerOperandIsTheShiftedRegister : Obligations.RegisterOperandIsTheShiftedRegister := by
  unfold Obligations.RegisterOperandIsTheShiftedRegister
  exact fun rm kind shamt s => ⟨rfl, rfl⟩

end Sys2Proof.Claims

/-! PROOFS. The checks of a cycle in their order, and when it retires (45_execution_loop.md R115 to R119;
60_exceptions.md R129). -/

namespace Sys2Proof.Machine

open Sys2Proof.Claims

/-! ### Bytes read as numbers -/

theorem toNat_readHalf (m : Memory) (a : Nat) : (m.readHalf a).toNat = littleEndian m a 2 := by
  change BitVec.toNat (w := 8 + 8) (m.read (a + 1) ++ m.read a) = _
  rw [toNat_cat]
  simp only [littleEndian]
  omega

theorem toNat_readWord_eq_littleEndian (m : Memory) (a : Nat) : (m.readWord a).toNat = littleEndian m a 4 := by
  rw [toNat_readWord]
  simp only [littleEndian, Nat.add_assoc, Nat.reduceAdd]
  omega

/-! ### The fetch -/

/-- A fetch whose checks pass reads its bytes little-endian, zero-extended (20_memory.md R35). -/
theorem fetch_littleEndian (s : State) (h : s.pc.toNat % fetchWidth s.mode = 0)
    (hr : s.pc.toNat + fetchWidth s.mode - 1 < s.memSize) :
    ∃ w, s.fetch = .ok w ∧ w.toNat = littleEndian s.mem s.pc.toNat (fetchWidth s.mode) := by
  cases hm : s.mode <;> rw [hm] at h hr
  · exact ⟨_, fetch_arm s hm h hr, toNat_readWord_eq_littleEndian _ _⟩
  · refine ⟨_, fetch_reduced s hm h hr, ?_⟩
    rw [BitVec.toNat_setWidth_of_le (by decide), toNat_readHalf]
    rfl

theorem step_of_fetch_ok {s : State} {w : Word} (h : s.fetch = .ok w) : step s = cycleOn s w := by
  rw [step, cycle, h]

theorem toNat_pc_advance (s : State) : s.advance.pc.toNat = (s.pc.toNat + fetchWidth s.mode) % 2 ^ 32 := by
  rw [pc_advance, BitVec.toNat_add, BitVec.toNat_ofNat, Nat.add_mod_mod]

/-! ### Data accesses -/

/-- The data access of LDR and STR is outside its checks: the cycle faults with the instruction's address. -/
theorem exec_transfer_fault {i : Instr} {s : State} {c : Cond} {rn rd : Reg} (hi : i = .ldr c rn rd ∨ i = .str c rn rd)
    (hp : s.passes c = true) (ha : ¬ WordInMemory s.memSize (s.reg rn)) :
    exec i s = .fault (.invalidAddress s.instrAddr (s.reg rn)) := by
  rw [WordInMemory, ← dataAccessOk_iff, Bool.not_eq_true] at ha
  rcases hi with rfl | rfl
  · exact exec_ldr_fault c rn rd s hp ha
  · exact exec_str_fault c rn rd s hp ha

/-- An instruction whose condition passes retires exactly when its data access, if it has one, is in memory. -/
theorem exec_retires_iff {i : Instr} {s : State} (hp : s.passes i.cond = true) : (∃ t, exec i s = .next t) ↔
    ∀ (c : Cond) (rn rd : Reg), i = .ldr c rn rd ∨ i = .str c rn rd → WordInMemory s.memSize (s.reg rn) := by
  constructor
  · rintro ⟨t, ht⟩ c rn rd hi
    by_contra ha
    have hpc : s.passes c = true := by rcases hi with rfl | rfl <;> exact hp
    rw [exec_transfer_fault hi hpc ha] at ht
    cases ht
  · intro ha
    rcases instr_cases i with ⟨d, hd⟩ | ⟨c, m, rfl⟩ | ⟨c, m, rfl⟩ | ⟨c, rn, rd, rfl⟩ | ⟨c, rn, rd, rfl⟩
    · exact ⟨_, by rw [exec_dp i d s hd, if_pos hp]⟩
    · exact ⟨_, exec_b c m s hp⟩
    · exact ⟨_, exec_bl c m s hp⟩
    · exact ⟨_, exec_ldr_ok c rn rd s hp ((dataAccessOk_iff _ _).mpr (ha c rn rd (.inl rfl)))⟩
    · exact ⟨_, exec_str_ok c rn rd s hp ((dataAccessOk_iff _ _).mpr (ha c rn rd (.inr rfl)))⟩

/-- In ARM mode with the word at the PC in memory, a step runs the instruction the word decodes to. -/
theorem step_decoded_arm {s : State} {i : Instr} (hm : s.mode = .arm) (ha : s.pc.toNat % 4 = 0)
    (hr : s.pc.toNat + 3 < s.memSize) (hd : decodeWord (s.mem.readWord s.pc.toNat) = .ok i) :
    step s = exec i s.advance := by
  have hf := fetch_arm s hm ha hr
  cases hp : s.passes i.cond with
  | true => exact step_decoded s _ i hm hf ((evaluates_eq_pass_iff hd).mpr hp) hd
  | false =>
    have he : s.evaluates (s.mem.readWord s.pc.toNat) = .fail := by
      rw [evaluates_decoded s _ i.cond (condField_of_decodeWord hd), hp]
      rfl
    rw [step_fail s _ hm hf he, exec_conditionFails i s.advance hp]

end Sys2Proof.Machine

namespace Sys2Proof.Claims

open Sys2Proof.Machine

/-- Settles O7: the cycle's condition test and the instruction's own agree, so the step is exec either way. -/
theorem stepRunsTheDecodedInstruction : Obligations.StepRunsTheDecodedInstruction := by
  unfold Obligations.StepRunsTheDecodedInstruction
  intro s i hm ha hr hd
  exact ⟨step_decoded_arm hm ha hr hd, pc_advance_arm hm, fun r h => reg_advance s r h, rfl, rfl, rfl, rfl⟩

/-- Settles O8: each check of the fetch in its order; a batch whose first cycle faults returns the state it began in. -/
theorem fetchChecksAlignmentThenBoundsThenReads : Obligations.FetchChecksAlignmentThenBoundsThenReads := by
  unfold Obligations.FetchChecksAlignmentThenBoundsThenReads
  intro s
  refine ⟨fun h => step_fetchFault s _ (fetch_unaligned s h), fun h hr => step_fetchFault s _ (fetch_outOfRange s h hr),
    fun h hr => ⟨?_, toNat_pc_advance s⟩, fun e he => by rw [stepBatch_one_fault s e he]⟩
  obtain ⟨w, hf, hw⟩ := fetch_littleEndian s h hr
  exact ⟨w, hf, hw, step_of_fetch_ok hf⟩

/-- Settles O9: the fetch reads the halfword, and reduced mode faults before the decoder. -/
theorem reducedModeFetchesAndFaults : Obligations.ReducedModeFetchesAndFaults := by
  unfold Obligations.ReducedModeFetchesAndFaults
  intro s hm ha hr
  rw [step_reduced s _ hm (fetch_reduced s hm ha hr), ← toNat_readHalf, BitVec.ofNat_toNat]

/-- Settles O10: code 1111 names no condition, so the cycle ends at the evaluator. -/
theorem reservedConditionFaults : Obligations.ReservedConditionFaults := by
  unfold Obligations.ReservedConditionFaults
  have heval : ∀ n z c v, evaluate 0b1111#4 n z c v = .reserved := fun _ _ _ _ => rfl
  refine ⟨heval, fun s low ⟨hm, hf⟩ => step_reserved s _ hm hf ?_⟩
  rw [State.evaluates, BitVec.extractLsb'_append_eq_left, heval]

/-- Settles O11: the cycle ends at the evaluator, after the advance and before the decoder. -/
theorem failedConditionOnlyAdvancesThePc : Obligations.FailedConditionOnlyAdvancesThePc := by
  unfold Obligations.FailedConditionOnlyAdvancesThePc
  intro s w ⟨hm, hf⟩ he
  have hstep := step_fail s w hm hf he
  exact ⟨s.advance, hstep, pc_advance_arm hm, fun r h => reg_advance s r h, rfl, ⟨rfl, rfl, fun _ => rfl⟩,
    stepBatch_one_next s _ hstep⟩

/-- Settles O13: the flags are read at their places, and the relation of each code is a table over them. -/
theorem evaluatorMatchesTheRelationTable : Obligations.EvaluatorMatchesTheRelationTable := by
  unfold Obligations.EvaluatorMatchesTheRelationTable
  refine ⟨by decide, ?_⟩
  intro s n z c v hn hz hc hv
  have hpasses : ∀ k, s.passes k = condHolds k n z c v := by
    subst hn hz hc hv
    exact fun _ => rfl
  refine ⟨hn, hz, hc, hv, fun w => by subst hn hz hc hv; rfl, ?_⟩
  simp only [hpasses]
  clear hpasses hn hz hc hv
  revert n z c v
  decide

/-- Settles O15: the checks of a step, in their order. -/
theorem stepRetiresExactlyWhenEveryCheckPasses : Obligations.StepRetiresExactlyWhenEveryCheckPasses := by
  unfold Obligations.StepRetiresExactlyWhenEveryCheckPasses
  intro s
  constructor
  · rintro ⟨t, h⟩
    obtain ⟨hm, w, hf, h⟩ := step_next s t h
    obtain ⟨ha, hr, rfl⟩ := fetch_ok_arm s w hm hf
    refine ⟨hm, ha, hr, h.imp And.left ?_⟩
    rintro ⟨he, i, hd, hx⟩
    exact ⟨he, i, hd, (exec_retires_iff (s := s.advance) ((evaluates_eq_pass_iff hd).mp he)).mp ⟨t, hx⟩⟩
  · rintro ⟨hm, ha, hr, he | ⟨he, i, hd, hmem⟩⟩
    · exact ⟨_, step_fail s _ hm (fetch_arm s hm ha hr) he⟩
    · rw [step_decoded_arm hm ha hr hd]
      exact (exec_retires_iff (s := s.advance) ((evaluates_eq_pass_iff hd).mp he)).mpr hmem

/-- Settles O36: the access faults with the address of the instruction, which is the PC before the advance. -/
theorem transferChecksFaultBeforeAnyByte : Obligations.TransferChecksFaultBeforeAnyByte := by
  unfold Obligations.TransferChecksFaultBeforeAnyByte
  intro c rn rd i s hi hm ha hr hd hp hbad
  have hstep : step s = .fault (.invalidAddress s.pc (s.advance.reg rn)) := by
    rw [step_decoded_arm hm ha hr hd, exec_transfer_fault (s := s.advance) hi hp, instrAddr_advance s hm]
    rintro ⟨halign, hin⟩
    rw [memSize_advance] at hin
    omega
  exact ⟨hstep, stepBatch_one_fault s _ hstep⟩

end Sys2Proof.Claims

/-! PROOFS. Branch targets as exact integers, words loaded, stored and fetched, and reads of the PC (43_branch.md R104
to R108; 44_load_store.md R110 to R113; 10_state.md R17). -/

namespace Sys2Proof.Machine

open Sys2Proof.Claims

/-! ### Branch targets -/

/-- The branch offset is four times the signed field (43_branch.md R104). -/
theorem branchOffset_eq (imm24 : BitVec 24) : branchOffset imm24 = BitVec.ofInt 32 (4 * imm24.toInt) := by
  rw [branchOffset, BitVec.shiftLeft_eq_mul_twoPow, BitVec.signExtend, Int.mul_comm, BitVec.ofInt_mul]
  rfl

/-- The target modulo 2^32, counted from the instruction's own address (43_branch.md R105). -/
theorem toNat_branchTarget {s : State} {addr : Word} (h : s.pc = addr + 4#32) (imm24 : BitVec 24) :
    ((s.branchTarget imm24).toNat : Int) = ((addr.toNat : Int) + 4 + 4 * imm24.toInt) % 2 ^ 32 := by
  rw [State.branchTarget, h, branchOffset_eq]
  simp only [BitVec.toNat_add, BitVec.toNat_ofInt, BitVec.toNat_ofNat]
  omega

/-! ### Stored words -/

theorem toNat_byteOfWord (v : Word) (k : Nat) : (byteOfWord v k).toNat = v.toNat / 256 ^ k % 256 := by
  rw [byteOfWord, toNat_extract, Nat.pow_mul]
  rfl

/-- An STR that retires stored the word. -/
theorem mem_of_exec_str {c : Cond} {rn rd : Reg} {s t : State} (hp : s.passes c = true)
    (h : exec (.str c rn rd) s = .next t) : WordInMemory s.memSize (s.reg rn) ∧
      t = { s with mem := s.mem.writeWord (s.reg rn).toNat (s.reg rd) } := by
  have ha := (exec_retires_iff hp).mp ⟨t, h⟩ c rn rd (.inr rfl)
  rw [exec_str_ok c rn rd s hp ((dataAccessOk_iff _ _).mpr ha)] at h
  exact ⟨ha, (Host.Outcome.next.inj h).symm⟩

end Sys2Proof.Machine

namespace Sys2Proof.Claims

open Sys2Proof.Machine

/-- Settles O32: the one write is the PC; the target is checked by the next fetch. -/
theorem branchJumpsRelativeToTheNextInstruction : Obligations.BranchJumpsRelativeToTheNextInstruction := by
  unfold Obligations.BranchJumpsRelativeToTheNextInstruction
  intro c imm24 addr s hp hpc
  have htarget := toNat_branchTarget hpc imm24
  refine ⟨_, exec_b c imm24 s hp, by rwa [pc_setPc], fun h => ?_, fun r hr => reg_setReg_other _ _ _ _ hr, rfl,
    ⟨rfl, rfl, fun _ => rfl⟩, fun hm ha hr => step_fetchFault _ _ (fetch_outOfRange _ ?_ ?_)⟩
  · rw [pc_setPc]
    omega
  · rwa [hm]
  · rwa [hm]

/-- Settles O33: the link register gets the PC before the jump; a failed condition is gated. -/
theorem branchWithLinkSavesTheReturnAddress : Obligations.BranchWithLinkSavesTheReturnAddress := by
  unfold Obligations.BranchWithLinkSavesTheReturnAddress
  intro c imm24 addr s hpc
  refine ⟨fun hp => ?_, fun hp => ⟨exec_conditionFails (.bl c imm24) s hp, exec_conditionFails (.b c imm24) s hp⟩⟩
  refine ⟨_, exec_bl c imm24 s hp, ?_, ?_, fun r h14 h15 => ?_, rfl, rfl, rfl, fun _ => rfl⟩
  · rw [reg_setPc, if_neg (by decide), reg_setReg_same, hpc]
  · rw [pc_setPc, toNat_branchTarget hpc]
  · rw [reg_setPc, if_neg h15, reg_setReg_other _ _ _ _ h14]

/-- Settles O34: the one write is Rd. -/
theorem ldrLoadsTheWord : Obligations.LdrLoadsTheWord := by
  unfold Obligations.LdrLoadsTheWord
  intro c rn rd s hp ha
  refine ⟨_, exec_ldr_ok c rn rd s hp ((dataAccessOk_iff _ _).mpr ha), ?_, fun r hr => reg_setReg_other _ _ _ _ hr, rfl,
    rfl, rfl, fun _ => rfl⟩
  rw [reg_setReg_same, toNat_readWord_eq_littleEndian]

/-- Settles O35: the one write is the word in memory, byte by byte. -/
theorem strStoresTheWord : Obligations.StrStoresTheWord := by
  unfold Obligations.StrStoresTheWord
  intro c rn rd s hp hwf ha
  refine ⟨_, exec_str_ok c rn rd s hp ((dataAccessOk_iff _ _).mpr ha), fun k hk => ?_,
    fun a hout => read_writeWord_other _ _ _ _ hout, fun _ => rfl, rfl, rfl, rfl⟩
  rw [read_writeWord _ _ _ _ hwf hk, toNat_byteOfWord]

/-- Settles O56: fetch and load read the word at the same place of the same memory. -/
theorem storedWordIsLoadedAndFetched : Obligations.StoredWordIsLoadedAndFetched := by
  unfold Obligations.StoredWordIsLoadedAndFetched
  intro c rn rd s t u hwf hp hstr hmem hsize
  obtain ⟨ha, rfl⟩ := mem_of_exec_str hp hstr
  have hread : u.mem.readWord (s.reg rn).toNat = s.reg rd := by rw [hmem, readWord_writeWord _ _ _ hwf]
  have hu : WordInMemory u.memSize (s.reg rn) := hsize ▸ ha
  constructor
  · intro hm hpc
    rw [← hpc] at hu hread
    rw [fetch_arm u hm hu.1 hu.2, hread]
  · intro k rb re hk hrb
    rw [← hrb] at hu hread
    exact ⟨_, exec_ldr_ok k rb re u hk ((dataAccessOk_iff _ _).mpr hu), by rw [reg_setReg_same, hread]⟩

/-- Settles O59: the advance has put the next address in register 15 when the operands are read. -/
theorem readOfThePcGivesTheNextAddress : Obligations.ReadOfThePcGivesTheNextAddress := by
  unfold Obligations.ReadOfThePcGivesTheNextAddress
  intro c rd rn s hm ha hr hp
  have hpc : s.advance.reg 15 = s.pc + 4#32 := pc_advance_arm hm
  constructor
  · rintro (hd | hd)
    · obtain ⟨t, ht, hreg, -⟩ := (addWritesTheSum c false 15 rd s.advance hp rfl).1 0 0#8
      obtain ⟨hzero, -⟩ := (immediateOperandIsRotated 0 0#8 s.advance).2.1 rfl
      rw [step_decoded_arm hm ha hr hd]
      refine ⟨t, ht, ?_⟩
      rw [hreg, hpc, hzero]
      exact BitVec.add_zero _
    · obtain ⟨t, ht, hreg, -⟩ := (movWritesOperandTwo c false rd s.advance hp rfl).2 0 .lsl 15
      rw [step_decoded_arm hm ha hr hd]
      exact ⟨t, ht, hreg.trans hpc⟩
  · intro hd hwf hin
    rw [step_decoded_arm hm ha hr hd]
    refine ⟨_, exec_str_ok c rn 15 s.advance hp ((dataAccessOk_iff _ _).mpr hin), ?_⟩
    exact (readWord_writeWord _ _ _ hwf).trans hpc

end Sys2Proof.Claims

/-! PROOFS. Batches as runs of single steps (45_execution_loop.md R121 to R123), and construction
(70_reset_and_hazards.md R137, R138). -/

namespace Sys2Proof.Machine

/-! ### Batches -/

/-- A batch that completes is a safe run of its length. -/
theorem runsTo_of_completed {n : Nat} {s t : State} (h : runCycles n s = ⟨t, .completed⟩) : RunsTo n s t := by
  induction n generalizing s with
  | zero => exact (congrArg BatchResult.state h).symm
  | succ n ih =>
    rw [runCycles] at h
    split at h
    · rename_i u hu
      exact ⟨u, hu, ih h⟩
    · cases h
    · cases h

/-- A batch that ends in a fault returns the state whose cycle raised it. -/
theorem step_of_faulted {n : Nat} {s t : State} {e : Fault} (h : runCycles n s = ⟨t, .faulted e⟩) :
    step t = .fault e := by
  induction n generalizing s with
  | zero => cases h
  | succ n ih =>
    rw [runCycles] at h
    split at h
    · exact ih h
    · rename_i e' he
      cases h
      exact he
    · cases h

/-- A batch of at least one cycle ends at once in a state whose cycle faults. -/
theorem runCycles_of_fault {n : Nat} {s : State} {e : Fault} (h : step s = .fault e) (hn : 0 < n) :
    runCycles n s = ⟨s, .faulted e⟩ := by
  obtain ⟨k, rfl⟩ := Nat.exists_eq_add_one.mpr hn
  rw [runCycles, h]

/-- No batch ends in a refusal, because no step is refused (00_scope.md R10). -/
theorem runCycles_ending_ne_refused (n : Nat) (s : State) (r : Refusal) : (runCycles n s).ending ≠ .refused r := by
  induction n generalizing s with
  | zero => nofun
  | succ n ih =>
    rw [runCycles]
    rcases step_next_or_fault s with ⟨t, h⟩ | ⟨e, h⟩
    · rw [h]
      exact ih t
    · rw [h]
      nofun

/-! ### Construction -/

theorem mode_constructFrom (mem : Memory) (size : Nat) (snap : Snapshot) :
    (constructFrom mem size snap).mode = snap.mode := by
  have h : (constructFrom mem size snap).cpsr.getLsbD 5 = decide (snap.mode = .reduced) := by
    rw [constructFrom, snapshotCpsr_getLsbD _ _ 5 (by decide)]
    simp
  rw [State.mode, modeOfCpsr, h]
  cases snap.mode <;> rfl

theorem modeOfCpsr_eq_reduced_iff (c : Word) : modeOfCpsr c = .reduced ↔ c.getLsbD 5 = true := by
  rw [modeOfCpsr]
  cases c.getLsbD 5 <;> decide

/-- A legal status word is the one that construction gives from it and its own mode. -/
theorem snapshotCpsr_of_reservedZero {c : Word} (h : c &&& 0x0FFFFFDF#32 = 0#32) :
    snapshotCpsr c (modeOfCpsr c) = c := by
  refine BitVec.eq_of_getLsbD_eq fun k hk => ?_
  rw [snapshotCpsr_getLsbD _ _ k hk]
  split
  · rfl
  · by_cases h5 : k = 5
    · simp [h5, modeOfCpsr_eq_reduced_iff]
    · rw [(reservedZero_iff c).mp h k (by omega) h5]
      simp [h5]

/-- Construction is construction from the zero snapshot of the mode, and then the PC. -/
theorem construct_eq_setPc (mem : Memory) (size : Nat) (pc : Word) (mode : Mode) : construct mem size pc mode =
    (constructFrom mem size ⟨Vector.replicate 16 0#32, 0#32, 0#32, mode⟩).setPc pc := rfl

end Sys2Proof.Machine

namespace Sys2Proof.Claims

open Sys2Proof.Machine

/-- Settles O57: the retired cycles come off the front of the batch. -/
theorem batchRunsToCountOrStopsAtTheFirstFault : Obligations.BatchRunsToCountOrStopsAtTheFirstFault := by
  unfold Obligations.BatchRunsToCountOrStopsAtTheFirstFault
  refine ⟨fun count s t h => runCycles_add 0 count.toNat s t h, fun count k s t e h hk he => ?_, fun s => rfl,
    fun count s r => runCycles_ending_ne_refused count.toNat s r⟩
  rw [stepBatch, ← Nat.add_sub_cancel' hk.le, runCycles_add _ k s t h]
  exact runCycles_of_fault he (Nat.sub_pos_of_lt hk)

/-- Settles O58: a completed batch is a run that comes off the front; a fault is raised again by the same state. -/
theorem batchRestartsFromTheReturnedState : Obligations.BatchRestartsFromTheReturnedState := by
  unfold Obligations.BatchRestartsFromTheReturnedState
  refine ⟨fun m n s t hlt h => ?_, fun m n s t e h hn => ?_⟩
  · rw [stepBatch, BitVec.toNat_add_of_lt hlt, runCycles_add _ _ s t (runsTo_of_completed h), stepBatch]
  · exact runCycles_of_fault (step_of_faulted h) (BitVec.toNat_pos_of_ne_zero hn)

/-- Settles O53: the reset values are the construction's, and no reserved bit is among them. -/
theorem resetStateIsLegal : Obligations.ResetStateIsLegal := by
  unfold Obligations.ResetStateIsLegal
  exact ⟨⟨by decide, nofun, by decide, by decide, by decide⟩, by decide⟩

/-- Settles O54: construction is construction from the snapshot with only the PC and the mode set. -/
theorem constructionGivesTheResetValues : Obligations.ConstructionGivesTheResetValues := by
  unfold Obligations.ConstructionGivesTheResetValues
  intro mem size pc mode
  refine ⟨fun r hr => ?_, ?_, mode_constructFrom .., fun k hk => ?_, rfl, rfl, rfl⟩
  · rw [construct_eq_setPc, reg_setPc, if_neg hr]
    exact Vector.getElem_replicate ..
  · rw [construct_eq_setPc, pc_setPc]
  · change (snapshotCpsr 0#32 mode).getLsbD k = false
    by_cases h32 : k < 32
    · rw [snapshotCpsr_getLsbD _ _ k h32]
      simp [hk]
    · exact BitVec.getLsbD_of_ge _ k (by omega)

/-- Settles O55: the status word bit by bit; a legal one comes back as it was. -/
theorem snapshotConstructionForcesReservedBitsAndRestores :
    Obligations.SnapshotConstructionForcesReservedBitsAndRestores := by
  unfold Obligations.SnapshotConstructionForcesReservedBitsAndRestores
  constructor
  · intro mem size snap
    exact ⟨fun r => rfl, rfl, mode_constructFrom mem size snap, fun k hk => snapshotCpsr_getLsbD _ _ k hk, rfl, rfl⟩
  · intro s hs
    exact State.ext_of_reg _ _ (fun _ => rfl) (snapshotCpsr_of_reservedZero hs.reservedZero) rfl rfl rfl

/-- Settles O6: ten fixed words. -/
theorem wordsWrittenFromTheSpecDecode : Obligations.WordsWrittenFromTheSpecDecode := by
  unfold Obligations.WordsWrittenFromTheSpecDecode
  decide

end Sys2Proof.Claims
